-- ==== Sys2Proof/Word.lean ====
section
/-! DEFINITION. The word types of the machine, by their widths (spec/00_scope.md R3): registers, addresses,
immediates, instruction words and memory words are 32 bits; a byte lane is 8; a register index is 5. -/

namespace Sys2Proof

/-- A register value, an address, an immediate, an instruction word or a memory word (R3). -/
abbrev Word := BitVec 32

/-- One byte lane of a word, and the data of the output port (R3). -/
abbrev Byte := BitVec 8

/-- A register index, `0 .. 31` (R3, R11). -/
abbrev RegIdx := BitVec 5

/-- A byte-enable mask, bit `i` for lane `i` (R3, R41). -/
abbrev ByteEnable := BitVec 4

end Sys2Proof
end

