-- ==== Sys2Proof/Config.lean ====
section
/-! DEFINITION. What one build of the hardware fixes (spec/00_scope.md R4), and the free values.

The four constants are OPEN parameters (92_eei_decisions D1). They stand in `State` as a field that every
step reads and no step changes, so every statement about all states is about all builds (log 1). -/

namespace Sys2Proof

/-- The four configuration constants (R4): "memory base address, memory end address (exclusive), output-port
sentinel address, and reset/start PC value". -/
structure Config where
  /-- `MEM_BASE`: first byte address of the memory window. -/
  memBase : Word
  /-- `MEM_END`: one past the last byte address of the window. -/
  memEnd : Word
  /-- `OUT_ADDR`: the sentinel byte address of the output port. -/
  outAddr : Word
  /-- `RESET_PC`: the value of `pc` in the initial state. -/
  resetPc : Word
  deriving DecidableEq, Repr

/-- `any32` (spec/20_memory.md R38): the word an out-of-window read returns. FREE VALUE: it has no body, so
nothing can be proved of what it is; the argument is the number of the read, so that any two reads may differ
(92_eei_decisions D6, D7; log 4). -/
opaque Config.any32 : Nat → Word

end Sys2Proof
end

