-- ==== Sys2Proof/Machine/State.lean ====
section
/-! DEFINITION. The state of the machine (spec/10_state.md R10), the reasons a step can stop, and the state after
reset (R26).

The spec's state is `pc`, `x[1] .. x[31]` and the word array `M`. Beside them stand the build's constants (log 1),
the stream of bytes the host has seen (log 6) and the counter of out-of-window reads (log 4). -/

namespace Sys2Proof.Machine

/-- Memory: the bytes that are not zero, by byte address, addresses strictly rising (`Memory.wf`). An address that
is not listed reads as `0x00` (log 3, log 14). Word `M[k]` is the four bytes at `MEM_BASE + 4k` (R16, 20_memory
R41). -/
abbrev Memory := List Host.Cell

/-- The whole state (R10). -/
structure State where
  /-- The four wired constants of the build (00_scope R4). Every step reads them and none changes them. -/
  cfg : Config
  /-- The program counter (R14). -/
  pc : Word
  /-- `x[1] .. x[31]`, entry `i` holding `x[i + 1]`; `x[0]` has no storage (R11, R12). -/
  regs : Vector Word 31
  /-- The unified memory array (R16). -/
  mem : Memory
  /-- The bytes driven on the output port with `out_valid = 1` so far, in cycle order (20_memory R43). The model's
  own record of the host's side: the port's pair is not state (R10, log 6). -/
  output : List Byte
  /-- How many out-of-window reads have been made: the number of the next `any32` (20_memory R38). The model's own
  field (log 4). -/
  draws : Nat
  deriving DecidableEq, Repr

/-- The reasons the machine faults: none. "There are no exceptions or recoverable-error returns in this core";
"No fatal conditions exist" (60_exceptions R220). With no constructor, no meaning can answer with a fault. -/
inductive Fault : Type
  deriving DecidableEq, Repr

/-- The reasons the model has no answer. -/
inductive Refusal where
  /-- Raised by `exec` for an instruction that has no meaning yet; no arm does. Safe: nothing is claimed of it. -/
  | notModelled (mnemonic : String)
  /-- Raised by `step` alone, when the build's constants break the constraints of 00_scope R5: "refuse: outside the
  model" (93_implementation_defined U10, log 8). Safe: nothing is claimed of such a build. -/
  | illegalBuild
  deriving DecidableEq, Repr

/-- The constants of `State.reset`: the only configuration the spec writes out, T0 of 92_eei_decisions D20. DESIGN
CHOICE (log 1): T0 "is an example, not a property of the hardware", and no statement rests on it. -/
def resetConfig : Config :=
  { memBase := 0x00000000#32, memEnd := 0x00000400#32, outAddr := 0x10000000#32, resetPc := 0x00000000#32 }

/-- The machine right after reset (R26, 70_reset_and_hazards R251): `pc = RESET_PC`; the registers, which the spec
leaves arbitrary, at zero (DESIGN CHOICE, log 2); the image of zero words (DESIGN CHOICE, log 3); nothing driven on
the port yet. For every other build, image and register content see `initialState` in `Machine/Boot.lean`. -/
def State.reset : State :=
  { cfg := resetConfig
    pc := resetConfig.resetPc
    regs := Vector.replicate 31 0x00000000#32
    mem := []
    output := []
    draws := 0 }

end Sys2Proof.Machine
end

