-- ==== Sys2Proof/Machine/Flags.lean ====
section
/-! DEFINITION. Comparisons (spec/40_execute_common.md R109). The hardware has no flags and no condition codes
(spec/10_state.md R17): a comparison is made inside the instruction, and its result is a branch decision or the
value 0 or 1 of a register. -/

namespace Sys2Proof.Machine

/-- `a <s b`: both read as two's complement (R109). -/
def ltSigned (a b : Word) : Bool := a.slt b

/-- `a <u b`: both read as non-negative (R109). -/
def ltUnsigned (a b : Word) : Bool := a.ult b

/-- `a >=s b`, the exact complement of `<s` (R109). -/
def geSigned (a b : Word) : Bool := !ltSigned a b

/-- `a >=u b`, the exact complement of `<u` (R109). -/
def geUnsigned (a b : Word) : Bool := !ltUnsigned a b

/-- A set-less-than result: `0x00000001` or `0x00000000` (R109). -/
def setIf (c : Bool) : Word := if c then 0x00000001#32 else 0x00000000#32

end Sys2Proof.Machine
end

