-- ==== Sys2Proof/Decode.lean ====
section
/-! DEFINITION. The decoder (spec/30_encoding.md): fields, the five immediates, the classification of every
32-bit word, the decoded record, and the encoder written from the same tables.

Two descriptions stand side by side. `decode` classifies by the `(opcode, funct3, funct7)` columns of R74 and names
why a word is rejected (R76). `decodeRecord` looks the word up among the `match`/`mask` rows of R74 and produces the
record of R68. The numeric opcode map is the spec's from general knowledge (log 10). -/

namespace Sys2Proof

/-! ### Fields (R60, R61) -/

/-- `opcode = iw[6:0]` (R60). -/
def opcode (iw : Word) : BitVec 7 := iw.extractLsb' 0 7

/-- `rd = iw[11:7]` (R61). -/
def rdField (iw : Word) : RegIdx := iw.extractLsb' 7 5

/-- `funct3 = iw[14:12]` (R60). -/
def funct3 (iw : Word) : BitVec 3 := iw.extractLsb' 12 3

/-- `rs1 = iw[19:15]` (R61). -/
def rs1Field (iw : Word) : RegIdx := iw.extractLsb' 15 5

/-- `rs2 = iw[24:20]` (R61); the shift amount of an immediate shift stands in the same bits (R62). -/
def rs2Field (iw : Word) : RegIdx := iw.extractLsb' 20 5

/-- `funct7 = iw[31:25]` (R60). -/
def funct7 (iw : Word) : BitVec 7 := iw.extractLsb' 25 7

/-! ### Immediates (R62 to R66) -/

/-- `imm_i = sext_12(iw[31:20])` (R62). -/
def immI (iw : Word) : Word := (iw.extractLsb' 20 12).signExtend 32

/-- `imm_s = sext_12({iw[31:25], iw[11:7]})` (R63). -/
def immS (iw : Word) : Word := (iw.extractLsb' 25 7 ++ iw.extractLsb' 7 5 : BitVec 12).signExtend 32

/-- `imm_b = sext_13({iw[31], iw[7], iw[30:25], iw[11:8], 0})` (R64). -/
def immB (iw : Word) : Word :=
  (iw.extractLsb' 31 1 ++ iw.extractLsb' 7 1 ++ iw.extractLsb' 25 6 ++ iw.extractLsb' 8 4 ++ 0#1 :
    BitVec 13).signExtend 32

/-- `imm_u = {iw[31:12], 0x000}` (R65). -/
def immU (iw : Word) : Word := iw.extractLsb' 12 20 ++ 0#12

/-- `imm_j = sext_21({iw[31], iw[19:12], iw[20], iw[30:21], 0})` (R66). -/
def immJ (iw : Word) : Word :=
  (iw.extractLsb' 31 1 ++ iw.extractLsb' 12 8 ++ iw.extractLsb' 20 1 ++ iw.extractLsb' 21 10 ++ 0#1 :
    BitVec 21).signExtend 32

/-! ### Classification (R73 to R76) -/

/-- Why a word is Invalid: the rows of R76. All have the one effect of R210; the names let a statement speak of a
part of the Invalid space (the last one is 93_implementation_defined U6, log 7). -/
inductive Reject where
  /-- `iw[6:0]` is none of the nine opcodes. -/
  | opcodeNotRecognised
  /-- Opcode `1100111` and funct3 not `000`. -/
  | jalrFunct3
  /-- Opcode `1100011` and funct3 `010` or `011`. -/
  | branchFunct3
  /-- Opcode `0000011` and funct3 `011`, `110` or `111`. -/
  | loadFunct3
  /-- Opcode `0100011` and funct3 `011` or above. -/
  | storeFunct3
  /-- Opcode `0010011`, a shift, and a funct7 with a bit set that no variant has (R75(a)). -/
  | shiftImmediateFunct7
  /-- Opcode `0110011` and a funct7 with a bit set that no variant has (R75(a)). -/
  | registerFunct7
  /-- `iw[30] = 1` and nothing else wrong, where there is no variant for it (R75(b)). -/
  | bit30WithoutVariant
  /-- Fewer than four bytes were given to `decodeBytes`; no word of the machine is short (R60). -/
  | truncated
  deriving DecidableEq, Repr

/-- Opcode `1100011` (R140 to R145). -/
def decodeBranch (iw : Word) : Except Reject Instr :=
  if funct3 iw = 0b000#3 then .ok (.beq (rs1Field iw) (rs2Field iw) (immB iw))
  else if funct3 iw = 0b001#3 then .ok (.bne (rs1Field iw) (rs2Field iw) (immB iw))
  else if funct3 iw = 0b100#3 then .ok (.blt (rs1Field iw) (rs2Field iw) (immB iw))
  else if funct3 iw = 0b101#3 then .ok (.bge (rs1Field iw) (rs2Field iw) (immB iw))
  else if funct3 iw = 0b110#3 then .ok (.bltu (rs1Field iw) (rs2Field iw) (immB iw))
  else if funct3 iw = 0b111#3 then .ok (.bgeu (rs1Field iw) (rs2Field iw) (immB iw))
  else .error .branchFunct3

/-- Opcode `0000011` (R150 to R154). -/
def decodeLoad (iw : Word) : Except Reject Instr :=
  if funct3 iw = 0b000#3 then .ok (.lb (rdField iw) (rs1Field iw) (immI iw))
  else if funct3 iw = 0b001#3 then .ok (.lh (rdField iw) (rs1Field iw) (immI iw))
  else if funct3 iw = 0b010#3 then .ok (.lw (rdField iw) (rs1Field iw) (immI iw))
  else if funct3 iw = 0b100#3 then .ok (.lbu (rdField iw) (rs1Field iw) (immI iw))
  else if funct3 iw = 0b101#3 then .ok (.lhu (rdField iw) (rs1Field iw) (immI iw))
  else .error .loadFunct3

/-- Opcode `0100011` (R160 to R162). -/
def decodeStore (iw : Word) : Except Reject Instr :=
  if funct3 iw = 0b000#3 then .ok (.sb (rs1Field iw) (rs2Field iw) (immS iw))
  else if funct3 iw = 0b001#3 then .ok (.sh (rs1Field iw) (rs2Field iw) (immS iw))
  else if funct3 iw = 0b010#3 then .ok (.sw (rs1Field iw) (rs2Field iw) (immS iw))
  else .error .storeFunct3

/-- Opcode `0010011` (R170 to R178). The six non-shift forms have no funct7 (R75(c)). -/
def decodeAluImmediate (iw : Word) : Except Reject Instr :=
  if funct3 iw = 0b000#3 then .ok (.addi (rdField iw) (rs1Field iw) (immI iw))
  else if funct3 iw = 0b010#3 then .ok (.slti (rdField iw) (rs1Field iw) (immI iw))
  else if funct3 iw = 0b011#3 then .ok (.sltiu (rdField iw) (rs1Field iw) (immI iw))
  else if funct3 iw = 0b100#3 then .ok (.xori (rdField iw) (rs1Field iw) (immI iw))
  else if funct3 iw = 0b110#3 then .ok (.ori (rdField iw) (rs1Field iw) (immI iw))
  else if funct3 iw = 0b111#3 then .ok (.andi (rdField iw) (rs1Field iw) (immI iw))
  else if funct3 iw = 0b001#3 then
    if funct7 iw = 0b0000000#7 then .ok (.slli (rdField iw) (rs1Field iw) (rs2Field iw))
    else if funct7 iw = 0b0100000#7 then .error .bit30WithoutVariant
    else .error .shiftImmediateFunct7
  else  -- funct3 `101`, the eighth and last value
    if funct7 iw = 0b0000000#7 then .ok (.srli (rdField iw) (rs1Field iw) (rs2Field iw))
    else if funct7 iw = 0b0100000#7 then .ok (.srai (rdField iw) (rs1Field iw) (rs2Field iw))
    else .error .shiftImmediateFunct7

/-- Opcode `0110011` (R190 to R199). -/
def decodeAluRegister (iw : Word) : Except Reject Instr :=
  if funct7 iw = 0b0000000#7 then
    if funct3 iw = 0b000#3 then .ok (.add (rdField iw) (rs1Field iw) (rs2Field iw))
    else if funct3 iw = 0b001#3 then .ok (.sll (rdField iw) (rs1Field iw) (rs2Field iw))
    else if funct3 iw = 0b010#3 then .ok (.slt (rdField iw) (rs1Field iw) (rs2Field iw))
    else if funct3 iw = 0b011#3 then .ok (.sltu (rdField iw) (rs1Field iw) (rs2Field iw))
    else if funct3 iw = 0b100#3 then .ok (.xor (rdField iw) (rs1Field iw) (rs2Field iw))
    else if funct3 iw = 0b101#3 then .ok (.srl (rdField iw) (rs1Field iw) (rs2Field iw))
    else if funct3 iw = 0b110#3 then .ok (.or (rdField iw) (rs1Field iw) (rs2Field iw))
    else .ok (.and (rdField iw) (rs1Field iw) (rs2Field iw))  -- funct3 `111`, the eighth and last value
  else if funct7 iw = 0b0100000#7 then
    if funct3 iw = 0b000#3 then .ok (.sub (rdField iw) (rs1Field iw) (rs2Field iw))
    else if funct3 iw = 0b101#3 then .ok (.sra (rdField iw) (rs1Field iw) (rs2Field iw))
    else .error .bit30WithoutVariant
  else .error .registerFunct7

/-- The instruction a word is, or why it is Invalid (R73, R74): total, and each word has one meaning. -/
def decode (iw : Word) : Except Reject Instr :=
  if opcode iw = 0b0110111#7 then .ok (.lui (rdField iw) (immU iw))
  else if opcode iw = 0b0010111#7 then .ok (.auipc (rdField iw) (immU iw))
  else if opcode iw = 0b1101111#7 then .ok (.jal (rdField iw) (immJ iw))
  else if opcode iw = 0b1100111#7 then
    if funct3 iw = 0b000#3 then .ok (.jalr (rdField iw) (rs1Field iw) (immI iw)) else .error .jalrFunct3
  else if opcode iw = 0b1100011#7 then decodeBranch iw
  else if opcode iw = 0b0000011#7 then decodeLoad iw
  else if opcode iw = 0b0100011#7 then decodeStore iw
  else if opcode iw = 0b0010011#7 then decodeAluImmediate iw
  else if opcode iw = 0b0110011#7 then decodeAluRegister iw
  else .error .opcodeNotRecognised

/-- The word is one of the 37 recognised encodings (R74), that is, not Invalid (R73). -/
def recognised (iw : Word) : Bool := (decode iw).isOk

/-! ### Bytes (R41) -/

/-- The word whose lane `i` is byte `bᵢ`: little-endian (R41, log 11). -/
def wordOfLanes (b0 b1 b2 b3 : Byte) : Word := b3 ++ b2 ++ b1 ++ b0

/-- Lane `i` of a word, `w[8i+7 : 8i]` (R41). -/
def lane (w : Word) (i : Nat) : Byte := w.extractLsb' (8 * i) 8

/-- The four bytes of a word in the order of their addresses (R41). -/
def wordBytes (w : Word) : List Byte := [lane w 0, lane w 1, lane w 2, lane w 3]

/-- The instruction at the front of a byte sequence, and the bytes after it: one 32-bit word (R60). -/
def decodeBytes : List Byte → Except Reject (Instr × List Byte)
  | b0 :: b1 :: b2 :: b3 :: rest => (decode (wordOfLanes b0 b1 b2 b3)).map (·, rest)
  | _ => .error .truncated

/-- The instruction the decoder reads from the instruction whose bits are `w`, numbered as
spec/opcode_table.json numbers them; every row of the table has 32 bits. -/
def decodeTableWord (nbits w : Nat) : Option Instr :=
  ((decodeBytes (wordBytes (BitVec.ofNat 32 (w % 2 ^ nbits)))).map Prod.fst).toOption

/-! ### The encoder (R67, and 95_test_vectors section 2.2) -/

/-- The six columns of R67's table: bits 31:25, 24:20, 19:15, 14:12, 11:7 and 6:0. -/
def packWord (c31_25 : BitVec 7) (c24_20 c19_15 : BitVec 5) (c14_12 : BitVec 3) (c11_7 : BitVec 5)
    (c6_0 : BitVec 7) : Word :=
  c31_25 ++ c24_20 ++ c19_15 ++ c14_12 ++ c11_7 ++ c6_0

/-- Format R. -/
def encodeR (f7 : BitVec 7) (f3 : BitVec 3) (op : BitVec 7) (rd rs1 rs2 : RegIdx) : Word :=
  packWord f7 rs2 rs1 f3 rd op

/-- Format I: `iw[31:20] = v[11:0]`. -/
def encodeI (f3 : BitVec 3) (op : BitVec 7) (rd rs1 : RegIdx) (v : Word) : Word :=
  packWord (v.extractLsb' 5 7) (v.extractLsb' 0 5) rs1 f3 rd op

/-- Format S: `iw[31:25] = v[11:5]; iw[11:7] = v[4:0]`. -/
def encodeS (f3 : BitVec 3) (op : BitVec 7) (rs1 rs2 : RegIdx) (v : Word) : Word :=
  packWord (v.extractLsb' 5 7) rs2 rs1 f3 (v.extractLsb' 0 5) op

/-- Format B: `iw[31] = v[12]; iw[30:25] = v[10:5]; iw[11:8] = v[4:1]; iw[7] = v[11]`. -/
def encodeB (f3 : BitVec 3) (op : BitVec 7) (rs1 rs2 : RegIdx) (v : Word) : Word :=
  packWord (v.extractLsb' 12 1 ++ v.extractLsb' 5 6 : BitVec 7) rs2 rs1 f3
    (v.extractLsb' 1 4 ++ v.extractLsb' 11 1 : BitVec 5) op

/-- Format U: `iw[31:12] = v[31:12]`. -/
def encodeU (op : BitVec 7) (rd : RegIdx) (v : Word) : Word :=
  packWord (v.extractLsb' 25 7) (v.extractLsb' 20 5) (v.extractLsb' 15 5) (v.extractLsb' 12 3) rd op

/-- Format J: `iw[31] = v[20]; iw[30:21] = v[10:1]; iw[20] = v[11]; iw[19:12] = v[19:12]`. -/
def encodeJ (op : BitVec 7) (rd : RegIdx) (v : Word) : Word :=
  packWord (v.extractLsb' 20 1 ++ v.extractLsb' 5 6 : BitVec 7)
    (v.extractLsb' 1 4 ++ v.extractLsb' 11 1 : BitVec 5) (v.extractLsb' 15 5) (v.extractLsb' 12 3) rd op

/-- The word of an instruction (R67, R74). -/
def encode : Instr → Word
  | .lui rd imm => encodeU 0b0110111#7 rd imm
  | .auipc rd imm => encodeU 0b0010111#7 rd imm
  | .jal rd imm => encodeJ 0b1101111#7 rd imm
  | .jalr rd rs1 imm => encodeI 0b000#3 0b1100111#7 rd rs1 imm
  | .beq rs1 rs2 imm => encodeB 0b000#3 0b1100011#7 rs1 rs2 imm
  | .bne rs1 rs2 imm => encodeB 0b001#3 0b1100011#7 rs1 rs2 imm
  | .blt rs1 rs2 imm => encodeB 0b100#3 0b1100011#7 rs1 rs2 imm
  | .bge rs1 rs2 imm => encodeB 0b101#3 0b1100011#7 rs1 rs2 imm
  | .bltu rs1 rs2 imm => encodeB 0b110#3 0b1100011#7 rs1 rs2 imm
  | .bgeu rs1 rs2 imm => encodeB 0b111#3 0b1100011#7 rs1 rs2 imm
  | .lb rd rs1 imm => encodeI 0b000#3 0b0000011#7 rd rs1 imm
  | .lh rd rs1 imm => encodeI 0b001#3 0b0000011#7 rd rs1 imm
  | .lw rd rs1 imm => encodeI 0b010#3 0b0000011#7 rd rs1 imm
  | .lbu rd rs1 imm => encodeI 0b100#3 0b0000011#7 rd rs1 imm
  | .lhu rd rs1 imm => encodeI 0b101#3 0b0000011#7 rd rs1 imm
  | .sb rs1 rs2 imm => encodeS 0b000#3 0b0100011#7 rs1 rs2 imm
  | .sh rs1 rs2 imm => encodeS 0b001#3 0b0100011#7 rs1 rs2 imm
  | .sw rs1 rs2 imm => encodeS 0b010#3 0b0100011#7 rs1 rs2 imm
  | .addi rd rs1 imm => encodeI 0b000#3 0b0010011#7 rd rs1 imm
  | .slti rd rs1 imm => encodeI 0b010#3 0b0010011#7 rd rs1 imm
  | .sltiu rd rs1 imm => encodeI 0b011#3 0b0010011#7 rd rs1 imm
  | .xori rd rs1 imm => encodeI 0b100#3 0b0010011#7 rd rs1 imm
  | .ori rd rs1 imm => encodeI 0b110#3 0b0010011#7 rd rs1 imm
  | .andi rd rs1 imm => encodeI 0b111#3 0b0010011#7 rd rs1 imm
  | .slli rd rs1 shamt => encodeR 0b0000000#7 0b001#3 0b0010011#7 rd rs1 shamt
  | .srli rd rs1 shamt => encodeR 0b0000000#7 0b101#3 0b0010011#7 rd rs1 shamt
  | .srai rd rs1 shamt => encodeR 0b0100000#7 0b101#3 0b0010011#7 rd rs1 shamt
  | .add rd rs1 rs2 => encodeR 0b0000000#7 0b000#3 0b0110011#7 rd rs1 rs2
  | .sub rd rs1 rs2 => encodeR 0b0100000#7 0b000#3 0b0110011#7 rd rs1 rs2
  | .sll rd rs1 rs2 => encodeR 0b0000000#7 0b001#3 0b0110011#7 rd rs1 rs2
  | .slt rd rs1 rs2 => encodeR 0b0000000#7 0b010#3 0b0110011#7 rd rs1 rs2
  | .sltu rd rs1 rs2 => encodeR 0b0000000#7 0b011#3 0b0110011#7 rd rs1 rs2
  | .xor rd rs1 rs2 => encodeR 0b0000000#7 0b100#3 0b0110011#7 rd rs1 rs2
  | .srl rd rs1 rs2 => encodeR 0b0000000#7 0b101#3 0b0110011#7 rd rs1 rs2
  | .sra rd rs1 rs2 => encodeR 0b0100000#7 0b101#3 0b0110011#7 rd rs1 rs2
  | .or rd rs1 rs2 => encodeR 0b0000000#7 0b110#3 0b0110011#7 rd rs1 rs2
  | .and rd rs1 rs2 => encodeR 0b0000000#7 0b111#3 0b0110011#7 rd rs1 rs2

/-! ### The decoded record (R68 to R72) -/

/-- The 34 operation names besides Invalid (R69; 90_conflicts C1, log 20). -/
inductive Operation where
  | loadUpperImm | addUpperImmPC | jumpAndLink | jumpAndLinkReg
  | branchEQ | branchNE | branchLT | branchGE | branchLTU | branchGEU
  | loadByte | loadHalf | loadWord | loadByteU | loadHalfU
  | storeByte | storeHalf | storeWord
  | addImm | setLTImm | setLTImmU | xorImm | orImm | andImm | shiftLeftImm | shiftRightImm
  | addOrSub | shiftLeft | setLT | setLTU | xor | shiftRight | or | and
  deriving DecidableEq, Repr

/-- The six formats (R67). -/
inductive Format where
  | R | I | S | B | U | J
  deriving DecidableEq, Repr

/-- `arithmetic_variant` (R70): instruction bit 30. -/
inductive ArithVariant where
  | addShiftUnsigned | subShiftSigned
  deriving DecidableEq, Repr

/-- `load_store_width` (R71). -/
inductive AccessWidth where
  | byte | half | word
  deriving DecidableEq, Repr

/-- One row of the opcode map (R74): the row applies to `iw` iff `iw & mask = match`. -/
structure OpcodeRow where
  mnemonic : String
  operation : Operation
  format : Format
  pattern : Word
  mask : Word
  deriving DecidableEq, Repr

/-- `iw & mask = match` (R74). -/
def OpcodeRow.matchesWord (r : OpcodeRow) (iw : Word) : Bool := iw &&& r.mask == r.pattern

/-- The rows of R120, R121. -/
def upperRows : List OpcodeRow :=
  [⟨"lui", .loadUpperImm, .U, 0x00000037#32, 0x0000007F#32⟩,
   ⟨"auipc", .addUpperImmPC, .U, 0x00000017#32, 0x0000007F#32⟩]

/-- The rows of R130, R131. -/
def jumpRows : List OpcodeRow :=
  [⟨"jal", .jumpAndLink, .J, 0x0000006F#32, 0x0000007F#32⟩,
   ⟨"jalr", .jumpAndLinkReg, .I, 0x00000067#32, 0x0000707F#32⟩]

/-- The rows of R140 to R145. -/
def branchRows : List OpcodeRow :=
  [⟨"beq", .branchEQ, .B, 0x00000063#32, 0x0000707F#32⟩,
   ⟨"bne", .branchNE, .B, 0x00001063#32, 0x0000707F#32⟩,
   ⟨"blt", .branchLT, .B, 0x00004063#32, 0x0000707F#32⟩,
   ⟨"bge", .branchGE, .B, 0x00005063#32, 0x0000707F#32⟩,
   ⟨"bltu", .branchLTU, .B, 0x00006063#32, 0x0000707F#32⟩,
   ⟨"bgeu", .branchGEU, .B, 0x00007063#32, 0x0000707F#32⟩]

/-- The rows of R150 to R154. -/
def loadRows : List OpcodeRow :=
  [⟨"lb", .loadByte, .I, 0x00000003#32, 0x0000707F#32⟩,
   ⟨"lh", .loadHalf, .I, 0x00001003#32, 0x0000707F#32⟩,
   ⟨"lw", .loadWord, .I, 0x00002003#32, 0x0000707F#32⟩,
   ⟨"lbu", .loadByteU, .I, 0x00004003#32, 0x0000707F#32⟩,
   ⟨"lhu", .loadHalfU, .I, 0x00005003#32, 0x0000707F#32⟩]

/-- The rows of R160 to R162. -/
def storeRows : List OpcodeRow :=
  [⟨"sb", .storeByte, .S, 0x00000023#32, 0x0000707F#32⟩,
   ⟨"sh", .storeHalf, .S, 0x00001023#32, 0x0000707F#32⟩,
   ⟨"sw", .storeWord, .S, 0x00002023#32, 0x0000707F#32⟩]

/-- The rows of R170 to R178. -/
def aluImmRows : List OpcodeRow :=
  [⟨"addi", .addImm, .I, 0x00000013#32, 0x0000707F#32⟩,
   ⟨"slti", .setLTImm, .I, 0x00002013#32, 0x0000707F#32⟩,
   ⟨"sltiu", .setLTImmU, .I, 0x00003013#32, 0x0000707F#32⟩,
   ⟨"xori", .xorImm, .I, 0x00004013#32, 0x0000707F#32⟩,
   ⟨"ori", .orImm, .I, 0x00006013#32, 0x0000707F#32⟩,
   ⟨"andi", .andImm, .I, 0x00007013#32, 0x0000707F#32⟩,
   ⟨"slli", .shiftLeftImm, .I, 0x00001013#32, 0xFE00707F#32⟩,
   ⟨"srli", .shiftRightImm, .I, 0x00005013#32, 0xFE00707F#32⟩,
   ⟨"srai", .shiftRightImm, .I, 0x40005013#32, 0xFE00707F#32⟩]

/-- The rows of R190 to R199. -/
def aluRegRows : List OpcodeRow :=
  [⟨"add", .addOrSub, .R, 0x00000033#32, 0xFE00707F#32⟩,
   ⟨"sub", .addOrSub, .R, 0x40000033#32, 0xFE00707F#32⟩,
   ⟨"sll", .shiftLeft, .R, 0x00001033#32, 0xFE00707F#32⟩,
   ⟨"slt", .setLT, .R, 0x00002033#32, 0xFE00707F#32⟩,
   ⟨"sltu", .setLTU, .R, 0x00003033#32, 0xFE00707F#32⟩,
   ⟨"xor", .xor, .R, 0x00004033#32, 0xFE00707F#32⟩,
   ⟨"srl", .shiftRight, .R, 0x00005033#32, 0xFE00707F#32⟩,
   ⟨"sra", .shiftRight, .R, 0x40005033#32, 0xFE00707F#32⟩,
   ⟨"or", .or, .R, 0x00006033#32, 0xFE00707F#32⟩,
   ⟨"and", .and, .R, 0x00007033#32, 0xFE00707F#32⟩]

/-- The opcode map, all 37 rows (R74; spec/opcode_table.json). -/
def opcodeTable : List OpcodeRow :=
  upperRows ++ jumpRows ++ branchRows ++ loadRows ++ storeRows ++ aluImmRows ++ aluRegRows

/-- The decoder's output for a recognised word (R68). A field an operation does not use has no value: it is
unspecified and never read (R70, R71, R72; 92_eei_decisions D14, log 15). -/
structure DecodedRecord where
  operation : Operation
  immediate : Option Word
  rd : RegIdx
  rs1 : RegIdx
  rs2 : RegIdx
  arithmeticVariant : Option ArithVariant
  loadStoreWidth : Option AccessWidth
  loadIsSigned : Option Bool
  deriving DecidableEq, Repr

/-- The immediate a format carries (R72). -/
def immediateOf (iw : Word) : Format → Option Word
  | .R => none
  | .I => some (immI iw)
  | .S => some (immS iw)
  | .B => some (immB iw)
  | .U => some (immU iw)
  | .J => some (immJ iw)

/-- `arithmetic_variant = iw[30]`, for the three operations that use it (R70). -/
def variantOf (iw : Word) : Operation → Option ArithVariant
  | .addOrSub | .shiftRight | .shiftRightImm =>
    some (if iw.getLsbD 30 then .subShiftSigned else .addShiftUnsigned)
  | _ => none

/-- The width in the operation's name, for loads and stores (R71). -/
def widthOf : Operation → Option AccessWidth
  | .loadByte | .loadByteU | .storeByte => some .byte
  | .loadHalf | .loadHalfU | .storeHalf => some .half
  | .loadWord | .storeWord => some .word
  | _ => none

/-- `load_is_signed`, for the loads that extend; a word load has nothing to extend (R71). -/
def signedOf : Operation → Option Bool
  | .loadByte | .loadHalf => some true
  | .loadByteU | .loadHalfU => some false
  | _ => none

/-- The decoder as R68 describes its output; `none` is Invalid, which carries no field (R73). -/
def decodeRecord (iw : Word) : Option DecodedRecord :=
  (opcodeTable.find? (·.matchesWord iw)).map fun row =>
    { operation := row.operation
      immediate := immediateOf iw row.format
      rd := rdField iw
      rs1 := rs1Field iw
      rs2 := rs2Field iw
      arithmeticVariant := variantOf iw row.operation
      loadStoreWidth := widthOf row.operation
      loadIsSigned := signedOf row.operation }

end Sys2Proof
end

