-- ==== Sys2Proof/Machine/Ops.lean ====
section
/-! DEFINITION. The named operations over memory, the program counter and the output port
(spec/20_memory.md, spec/40_execute_common.md R104, R105).

TAKING AN EXCEPTION AND RETURNING FROM ONE: the hardware has neither. It raises no exception (60_exceptions R220),
saves nothing anywhere (R221), has no trap entry and no trap return (R224), no interrupt (R222) and no mode (R226).
So there is no such operation here; what the hardware does where another core would trap is in the operations
themselves (rounding, free values, dropped writes) and in `Machine/Invalid.lean`. -/

namespace Sys2Proof.Machine

/-! ### The build's constants (00_scope R5) -/

/-- The constraints on the four constants (00_scope R5; 92_eei_decisions D2; log 13): the two ends of the window and
the sentinel are multiples of 4, the window is not empty and does not wrap, and the sentinel is outside it. -/
def legalBuild (c : Config) : Bool :=
  decide (c.memBase.toNat % 4 = 0 ∧ c.memEnd.toNat % 4 = 0 ∧ c.outAddr.toNat % 4 = 0 ∧
    c.memBase.toNat < c.memEnd.toNat ∧
    (c.outAddr.toNat < c.memBase.toNat ∨ c.memEnd.toNat ≤ c.outAddr.toNat))

/-! ### Memory byte by byte -/

/-- Addresses strictly rise, the first is at least `low`, and no listed byte is the one an unlisted address reads
as. -/
def Memory.wfFrom (low : Nat) : Memory → Bool
  | [] => true
  | (k, b) :: rest => decide (low ≤ k) && b != 0x00#8 && Memory.wfFrom (k + 1) rest

/-- The canonical form: addresses strictly rise and no listed byte is `0x00`. -/
def Memory.wf (m : Memory) : Bool := Memory.wfFrom 0 m

/-- The byte at an address; an unlisted address reads as `0x00` (log 3, log 14). -/
def Memory.readByte : Memory → Nat → Byte
  | [], _ => 0x00#8
  | (k, b) :: rest, a => if k = a then b else Memory.readByte rest a

/-- The memory without any entry for an address. -/
def Memory.erase : Memory → Nat → Memory
  | [], _ => []
  | (k, b) :: rest, a => if k = a then Memory.erase rest a else (k, b) :: Memory.erase rest a

/-- The memory with an entry put before the first higher address. -/
def Memory.insert : Memory → Nat → Byte → Memory
  | [], a, v => [(a, v)]
  | (k, b) :: rest, a, v => if a < k then (a, v) :: (k, b) :: rest else (k, b) :: Memory.insert rest a v

/-- One byte written. Writing `0x00` removes the entry, so that equal memories are equal lists. -/
def Memory.writeByte (m : Memory) (a : Nat) (v : Byte) : Memory :=
  if v = 0x00#8 then Memory.erase m a else Memory.insert (Memory.erase m a) a v

/-! ### Memory word by word (20_memory R39, R41) -/

/-- The word whose lane `i` is the byte at address `k + i` (R41). -/
def Memory.readWord (m : Memory) (k : Nat) : Word :=
  wordOfLanes (Memory.readByte m k) (Memory.readByte m (k + 1)) (Memory.readByte m (k + 2))
    (Memory.readByte m (k + 3))

/-- Lane `i` of `d` written at `k + i` if enable bit `i` is set (R39). -/
def Memory.writeLane (m : Memory) (k : Nat) (be : ByteEnable) (d : Word) (i : Nat) : Memory :=
  if be.getLsbD i then Memory.writeByte m (k + i) (lane d i) else m

/-- The four lanes of one word under their enables (R39). -/
def Memory.writeLanes (m : Memory) (k : Nat) (be : ByteEnable) (d : Word) : Memory :=
  Memory.writeLane (Memory.writeLane (Memory.writeLane (Memory.writeLane m k be d 0) k be d 1) k be d 2) k be d 3

/-! ### The window (20_memory R32, R33) -/

/-- `InWindow(a)`: `u(MEM_BASE) <= u(a) < u(MEM_END)` (R32). -/
def inWindow (c : Config) (a : Word) : Bool :=
  decide (c.memBase.toNat ≤ a.toNat ∧ a.toNat < c.memEnd.toNat)

/-- `Index(a) = (u(a) - u(MEM_BASE)) >> 2` (R33). -/
def wordIndex (c : Config) (a : Word) : Nat := (a.toNat - c.memBase.toNat) / 4

/-- The byte address `MEM_BASE + 4k` of the first byte of the word `M[k]` (10_state R16). -/
def wordBase (c : Config) (k : Nat) : Nat := c.memBase.toNat + 4 * k

/-- The byte address of the first byte of the word that holds `a` (R33). -/
def wordKey (c : Config) (a : Word) : Nat := wordBase c (wordIndex c a)

/-- `a & 0xFFFFFFFC`: the address presented to the data channel (R35). -/
def wordAlign (a : Word) : Word := a &&& 0xFFFFFFFC#32

/-! ### The three channel operations (20_memory R36 to R40) -/

/-- `M[Index(a)]`. -/
def State.wordAt (s : State) (a : Word) : Word := Memory.readWord s.mem (wordKey s.cfg a)

/-- `ReadWord(a)`, and `FetchWord(a)`, which is the same function on the other channel (R36, R37): the stored word
in the window, the next free value outside it (R38). -/
def State.readWord (s : State) (a : Word) : Word :=
  if inWindow s.cfg a then s.wordAt a else Config.any32 s.draws

/-- What a read leaves: nothing changes (R51), but that an out-of-window read has used up its free value, so that
the next one is another (R38; log 4). -/
def State.afterRead (s : State) (a : Word) : State :=
  if inWindow s.cfg a then s else { s with draws := s.draws + 1 }

/-- A byte driven on the output port with `out_valid = 1` (R43). -/
def State.emit (s : State) (b : Byte) : State := { s with output := s.output ++ [b] }

/-- `WriteWord(a, be, d)` (R39): the sentinel is tested first (R43), then the window; elsewhere nothing happens
(R40). -/
def State.writeWord (s : State) (a : Word) (be : ByteEnable) (d : Word) : State :=
  if a = s.cfg.outAddr then
    if be.getLsbD 0 then s.emit (lane d 0) else s
  else if inWindow s.cfg a then { s with mem := Memory.writeLanes s.mem (wordKey s.cfg a) be d }
  else s

/-! ### The fetch channel (20_memory R36, R49) -/

/-- The instruction word of this cycle: `iw = FetchWord(pc)` (R100, R101; 20_memory R36). -/
def State.fetchWord (s : State) : Word := s.readWord s.pc

/-- What the fetch leaves (20_memory R51; log 5). -/
def State.afterFetch (s : State) : State := s.afterRead s.pc

/-! ### Loads and stores as an instruction sees them (20_memory R46, R47) -/

/-- The byte lane of an effective address, `addr[1:0]` (R46). -/
def byteLane (ea : Word) : Nat := (ea.extractLsb' 0 2).toNat

/-- The half lane of an effective address, `addr[1]`; `addr[0]` is ignored (R46). -/
def halfLane (ea : Word) : Nat := (ea.extractLsb' 1 1).toNat

/-- The byte of `w` at the lane of `ea` (R46, `n = 1`). -/
def selectByte (w ea : Word) : BitVec 8 := w.extractLsb' (8 * byteLane ea) 8

/-- The half-word of `w` at the half lane of `ea` (R46, `n = 2`). -/
def selectHalf (w ea : Word) : BitVec 16 := w.extractLsb' (16 * halfLane ea) 16

/-- `MemRead(ea, 1)` (R46). -/
def State.memRead1 (s : State) (ea : Word) : BitVec 8 := selectByte (s.readWord (wordAlign ea)) ea

/-- `MemRead(ea, 2)` (R46). -/
def State.memRead2 (s : State) (ea : Word) : BitVec 16 := selectHalf (s.readWord (wordAlign ea)) ea

/-- `MemRead(ea, 4)` (R46). -/
def State.memRead4 (s : State) (ea : Word) : Word := s.readWord (wordAlign ea)

/-- The byte enables of a byte store: `1 << lane` (R47). -/
def byteEnable1 (ea : Word) : ByteEnable := 0b0001#4 <<< byteLane ea

/-- The byte enables of a half-word store: `0b0011 << (2*h)` (R47). -/
def byteEnable2 (ea : Word) : ByteEnable := 0b0011#4 <<< (2 * halfLane ea)

/-- The byte enables of a word store: all four lanes (R47). -/
def byteEnable4 : ByteEnable := 0b1111#4

/-- `{v[7:0], v[7:0], v[7:0], v[7:0]}` (R47). -/
def replicateByte (v : Word) : Word := wordOfLanes (lane v 0) (lane v 0) (lane v 0) (lane v 0)

/-- `{v[15:0], v[15:0]}` (R47). -/
def replicateHalf (v : Word) : Word := wordOfLanes (lane v 0) (lane v 1) (lane v 0) (lane v 1)

/-- `MemWrite(ea, 1, v)` (R47). -/
def State.memWrite1 (s : State) (ea v : Word) : State :=
  s.writeWord (wordAlign ea) (byteEnable1 ea) (replicateByte v)

/-- `MemWrite(ea, 2, v)` (R47). -/
def State.memWrite2 (s : State) (ea v : Word) : State :=
  s.writeWord (wordAlign ea) (byteEnable2 ea) (replicateHalf v)

/-- `MemWrite(ea, 4, v)` (R47). -/
def State.memWrite4 (s : State) (ea v : Word) : State := s.writeWord (wordAlign ea) byteEnable4 v

/-! ### The program counter (40_execute_common R104) -/

/-- `pc <- t`. -/
def State.setPc (s : State) (t : Word) : State := { s with pc := t }

/-- The default `pc <- pc + 4`, modulo 2^32 (R104, R107). -/
def State.advance (s : State) : State := s.setPc (s.pc + 4#32)

/-! ### Placing a word where it is fetched next (log 9) -/

/-- `s`, moved to a state that can fetch a word of its own memory: a legal build keeps its constants, and a `pc` in
the window is kept. Elsewhere no word the host stored would be fetched (20_memory R38). -/
def State.fetchable (s : State) : State :=
  let t := if legalBuild s.cfg then s else { s with cfg := resetConfig }
  if inWindow t.cfg t.pc then t else t.setPc t.cfg.memBase

end Sys2Proof.Machine
end

