-- ==== Sys2Proof/Machine/Operands.lean ====
section
/-! DEFINITION. The operand forms: register reads and writes (spec/10_state.md R11 to R13), base plus displacement
(spec/40_execute_common.md R103), shift amounts and shifts (R108). An immediate operand is its 32-bit value. -/

namespace Sys2Proof.Machine

/-- `x[i]`: register 0 reads as zero (R12). -/
def State.readReg (s : State) (i : RegIdx) : Word :=
  if i = 0#5 then 0x00000000#32 else s.regs[i.toNat - 1]'(by have := i.isLt; omega)

/-- `x[i] <- v`: a write of register 0 is dropped (R12). -/
def State.writeReg (s : State) (i : RegIdx) (v : Word) : State :=
  if i = 0#5 then s else { s with regs := s.regs.set (i.toNat - 1) v (by have := i.isLt; omega) }

/-- The common end of an instruction that writes a register and falls through: `x[rd] <- v`, `pc <- pc + 4`
(40_execute_common R104). -/
def State.writeBack (s : State) (rd : RegIdx) (v : Word) : State := (s.writeReg rd v).advance

/-- `ea = x[rs1] + imm`, modulo 2^32 (R103). -/
def State.effAddr (s : State) (rs1 : RegIdx) (imm : Word) : Word := s.readReg rs1 + imm

/-- The shift amount in a register value: its low five bits (R108). -/
def shiftAmount (v : Word) : BitVec 5 := v.extractLsb' 0 5

/-- `a << n` (R108). -/
def shiftLeft (a : Word) (n : BitVec 5) : Word := a <<< n.toNat

/-- `a >>u n` (R108). -/
def shiftRightUnsigned (a : Word) (n : BitVec 5) : Word := a >>> n.toNat

/-- `a >>s n`: copies of bit 31 enter at the top (R108). -/
def shiftRightSigned (a : Word) (n : BitVec 5) : Word := a.sshiftRight n.toNat

end Sys2Proof.Machine
end

