-- ==== Sys2Proof/Machine/AluImmediate.lean ====
section
/-! DEFINITION. The register-immediate instructions (spec/46_alu_immediate.md). Each writes `x[rd]` and leaves
`pc <- pc + 4`; none touches memory. -/

namespace Sys2Proof.Machine

/-- `addi` (R170): `x[rd] <- x[rs1] + imm`, modulo 2^32; bit 30 is an immediate bit (30_encoding R70). -/
def execAddi (rd rs1 : RegIdx) (imm : Word) (s : State) : Host.Outcome State Fault Refusal :=
  .next (s.writeBack rd (s.readReg rs1 + imm))

/-- `slti` (R171): `x[rd] <- (x[rs1] <s imm) ? 1 : 0`. -/
def execSlti (rd rs1 : RegIdx) (imm : Word) (s : State) : Host.Outcome State Fault Refusal :=
  .next (s.writeBack rd (setIf (ltSigned (s.readReg rs1) imm)))

/-- `sltiu` (R172): `x[rd] <- (x[rs1] <u imm) ? 1 : 0`, the immediate sign-extended first. -/
def execSltiu (rd rs1 : RegIdx) (imm : Word) (s : State) : Host.Outcome State Fault Refusal :=
  .next (s.writeBack rd (setIf (ltUnsigned (s.readReg rs1) imm)))

/-- `xori` (R173): `x[rd] <- x[rs1] ^ imm`. -/
def execXori (rd rs1 : RegIdx) (imm : Word) (s : State) : Host.Outcome State Fault Refusal :=
  .next (s.writeBack rd (s.readReg rs1 ^^^ imm))

/-- `ori` (R174): `x[rd] <- x[rs1] | imm`. -/
def execOri (rd rs1 : RegIdx) (imm : Word) (s : State) : Host.Outcome State Fault Refusal :=
  .next (s.writeBack rd (s.readReg rs1 ||| imm))

/-- `andi` (R175): `x[rd] <- x[rs1] & imm`. -/
def execAndi (rd rs1 : RegIdx) (imm : Word) (s : State) : Host.Outcome State Fault Refusal :=
  .next (s.writeBack rd (s.readReg rs1 &&& imm))

/-- `slli` (R176): `x[rd] <- x[rs1] << shamt`. -/
def execSlli (rd rs1 : RegIdx) (shamt : BitVec 5) (s : State) : Host.Outcome State Fault Refusal :=
  .next (s.writeBack rd (shiftLeft (s.readReg rs1) shamt))

/-- `srli` (R177): `x[rd] <- x[rs1] >>u shamt`. -/
def execSrli (rd rs1 : RegIdx) (shamt : BitVec 5) (s : State) : Host.Outcome State Fault Refusal :=
  .next (s.writeBack rd (shiftRightUnsigned (s.readReg rs1) shamt))

/-- `srai` (R178): `x[rd] <- x[rs1] >>s shamt`. -/
def execSrai (rd rs1 : RegIdx) (shamt : BitVec 5) (s : State) : Host.Outcome State Fault Refusal :=
  .next (s.writeBack rd (shiftRightSigned (s.readReg rs1) shamt))

end Sys2Proof.Machine
end

