-- ==== Sys2Proof/Machine/AluRegister.lean ====
section
/-! DEFINITION. The register-register instructions (spec/47_alu_register.md). Each writes `x[rd]` and leaves
`pc <- pc + 4`; none touches memory. -/

namespace Sys2Proof.Machine

/-- `add` (R190): `x[rd] <- x[rs1] + x[rs2]`, modulo 2^32. -/
def execAdd (rd rs1 rs2 : RegIdx) (s : State) : Host.Outcome State Fault Refusal :=
  .next (s.writeBack rd (s.readReg rs1 + s.readReg rs2))

/-- `sub` (R191): `x[rd] <- x[rs1] - x[rs2]`, modulo 2^32. -/
def execSub (rd rs1 rs2 : RegIdx) (s : State) : Host.Outcome State Fault Refusal :=
  .next (s.writeBack rd (s.readReg rs1 - s.readReg rs2))

/-- `sll` (R192): `x[rd] <- x[rs1] << x[rs2][4:0]`. -/
def execSll (rd rs1 rs2 : RegIdx) (s : State) : Host.Outcome State Fault Refusal :=
  .next (s.writeBack rd (shiftLeft (s.readReg rs1) (shiftAmount (s.readReg rs2))))

/-- `slt` (R193): `x[rd] <- (x[rs1] <s x[rs2]) ? 1 : 0`. -/
def execSlt (rd rs1 rs2 : RegIdx) (s : State) : Host.Outcome State Fault Refusal :=
  .next (s.writeBack rd (setIf (ltSigned (s.readReg rs1) (s.readReg rs2))))

/-- `sltu` (R194): `x[rd] <- (x[rs1] <u x[rs2]) ? 1 : 0`. -/
def execSltu (rd rs1 rs2 : RegIdx) (s : State) : Host.Outcome State Fault Refusal :=
  .next (s.writeBack rd (setIf (ltUnsigned (s.readReg rs1) (s.readReg rs2))))

/-- `xor` (R195): `x[rd] <- x[rs1] ^ x[rs2]`. -/
def execXor (rd rs1 rs2 : RegIdx) (s : State) : Host.Outcome State Fault Refusal :=
  .next (s.writeBack rd (s.readReg rs1 ^^^ s.readReg rs2))

/-- `srl` (R196): `x[rd] <- x[rs1] >>u x[rs2][4:0]`. -/
def execSrl (rd rs1 rs2 : RegIdx) (s : State) : Host.Outcome State Fault Refusal :=
  .next (s.writeBack rd (shiftRightUnsigned (s.readReg rs1) (shiftAmount (s.readReg rs2))))

/-- `sra` (R197): `x[rd] <- x[rs1] >>s x[rs2][4:0]`. -/
def execSra (rd rs1 rs2 : RegIdx) (s : State) : Host.Outcome State Fault Refusal :=
  .next (s.writeBack rd (shiftRightSigned (s.readReg rs1) (shiftAmount (s.readReg rs2))))

/-- `or` (R198): `x[rd] <- x[rs1] | x[rs2]`. -/
def execOr (rd rs1 rs2 : RegIdx) (s : State) : Host.Outcome State Fault Refusal :=
  .next (s.writeBack rd (s.readReg rs1 ||| s.readReg rs2))

/-- `and` (R199): `x[rd] <- x[rs1] & x[rs2]`. -/
def execAnd (rd rs1 rs2 : RegIdx) (s : State) : Host.Outcome State Fault Refusal :=
  .next (s.writeBack rd (s.readReg rs1 &&& s.readReg rs2))

end Sys2Proof.Machine
end

