-- ==== Sys2Proof/Machine/Branches.lean ====
section
/-! DEFINITION. The conditional branches (spec/43_branches.md). A branch writes no register and no memory. -/

namespace Sys2Proof.Machine

/-- `Branch(cond)`: `pc <- pc + imm` if taken, else `pc <- pc + 4` (43_branches, common to all six). -/
def State.branch (s : State) (cond : Bool) (imm : Word) : State :=
  if cond then s.setPc (s.pc + imm) else s.advance

/-- `beq` (R140): taken iff all 32 bits are equal. -/
def execBeq (rs1 rs2 : RegIdx) (imm : Word) (s : State) : Host.Outcome State Fault Refusal :=
  .next (s.branch (s.readReg rs1 == s.readReg rs2) imm)

/-- `bne` (R141): taken iff any bit differs. -/
def execBne (rs1 rs2 : RegIdx) (imm : Word) (s : State) : Host.Outcome State Fault Refusal :=
  .next (s.branch (s.readReg rs1 != s.readReg rs2) imm)

/-- `blt` (R142): taken iff `x[rs1] <s x[rs2]`. -/
def execBlt (rs1 rs2 : RegIdx) (imm : Word) (s : State) : Host.Outcome State Fault Refusal :=
  .next (s.branch (ltSigned (s.readReg rs1) (s.readReg rs2)) imm)

/-- `bge` (R143): taken iff `x[rs1] >=s x[rs2]`. -/
def execBge (rs1 rs2 : RegIdx) (imm : Word) (s : State) : Host.Outcome State Fault Refusal :=
  .next (s.branch (geSigned (s.readReg rs1) (s.readReg rs2)) imm)

/-- `bltu` (R144): taken iff `x[rs1] <u x[rs2]`. -/
def execBltu (rs1 rs2 : RegIdx) (imm : Word) (s : State) : Host.Outcome State Fault Refusal :=
  .next (s.branch (ltUnsigned (s.readReg rs1) (s.readReg rs2)) imm)

/-- `bgeu` (R145): taken iff `x[rs1] >=u x[rs2]`. -/
def execBgeu (rs1 rs2 : RegIdx) (imm : Word) (s : State) : Host.Outcome State Fault Refusal :=
  .next (s.branch (geUnsigned (s.readReg rs1) (s.readReg rs2)) imm)

end Sys2Proof.Machine
end

