-- ==== Sys2Proof/Machine/Jumps.lean ====
section
/-! DEFINITION. The unconditional jumps (spec/42_jumps.md). A target is never checked (R132). -/

namespace Sys2Proof.Machine

/-- The common part of the jumps: `x[rd] <- pc + 4` and `pc <- t`, `t` computed on the state before (R130, R131;
40_execute_common R105, R106). -/
def State.linkAndJump (s : State) (rd : RegIdx) (t : Word) : State := (s.writeReg rd (s.pc + 4#32)).setPc t

/-- `jal rd, offset` (R130): `x[rd] <- pc + 4`, `pc <- pc + imm`. -/
def execJal (rd : RegIdx) (imm : Word) (s : State) : Host.Outcome State Fault Refusal :=
  .next (s.linkAndJump rd (s.pc + imm))

/-- `jalr rd, imm(rs1)` (R131): `x[rd] <- pc + 4`, `pc <- (x[rs1] + imm) & 0xFFFFFFFE`; only bit 0 is cleared. -/
def execJalr (rd rs1 : RegIdx) (imm : Word) (s : State) : Host.Outcome State Fault Refusal :=
  .next (s.linkAndJump rd (s.effAddr rs1 imm &&& 0xFFFFFFFE#32))

end Sys2Proof.Machine
end

