-- ==== Sys2Proof/Machine/Loads.lean ====
section
/-! DEFINITION. The loads (spec/44_loads.md). No load faults; a misaligned address is rounded inside its word
(20_memory R48); an address outside the window loads a free word and the instruction completes (R38). -/

namespace Sys2Proof.Machine

/-- The common end of a load at `ea` that obtained `v`: the data channel has been read, `x[rd] <- v`,
`pc <- pc + 4`. The read is made also for `rd = 0` (10_state R12). -/
def State.finishLoad (s : State) (rd : RegIdx) (ea v : Word) : State :=
  (s.afterRead (wordAlign ea)).writeBack rd v

/-- `lb` (R150): `x[rd] <- sext_8(MemRead(ea, 1))`. -/
def execLb (rd rs1 : RegIdx) (imm : Word) (s : State) : Host.Outcome State Fault Refusal :=
  .next (s.finishLoad rd (s.effAddr rs1 imm) ((s.memRead1 (s.effAddr rs1 imm)).signExtend 32))

/-- `lh` (R151): `x[rd] <- sext_16(MemRead(ea, 2))`. -/
def execLh (rd rs1 : RegIdx) (imm : Word) (s : State) : Host.Outcome State Fault Refusal :=
  .next (s.finishLoad rd (s.effAddr rs1 imm) ((s.memRead2 (s.effAddr rs1 imm)).signExtend 32))

/-- `lw` (R152): `x[rd] <- MemRead(ea, 4)`. -/
def execLw (rd rs1 : RegIdx) (imm : Word) (s : State) : Host.Outcome State Fault Refusal :=
  .next (s.finishLoad rd (s.effAddr rs1 imm) (s.memRead4 (s.effAddr rs1 imm)))

/-- `lbu` (R153): `x[rd] <- zext_8(MemRead(ea, 1))`. -/
def execLbu (rd rs1 : RegIdx) (imm : Word) (s : State) : Host.Outcome State Fault Refusal :=
  .next (s.finishLoad rd (s.effAddr rs1 imm) ((s.memRead1 (s.effAddr rs1 imm)).zeroExtend 32))

/-- `lhu` (R154): `x[rd] <- zext_16(MemRead(ea, 2))`. -/
def execLhu (rd rs1 : RegIdx) (imm : Word) (s : State) : Host.Outcome State Fault Refusal :=
  .next (s.finishLoad rd (s.effAddr rs1 imm) ((s.memRead2 (s.effAddr rs1 imm)).zeroExtend 32))

end Sys2Proof.Machine
end

