-- ==== Sys2Proof/Machine/Stores.lean ====
section
/-! DEFINITION. The stores (spec/45_stores.md). No store faults: its destination is the output port, the window or
nothing, in that order (20_memory R39). -/

namespace Sys2Proof.Machine

/-- `sb` (R160): `MemWrite(ea, 1, x[rs2])`. -/
def execSb (rs1 rs2 : RegIdx) (imm : Word) (s : State) : Host.Outcome State Fault Refusal :=
  .next (s.memWrite1 (s.effAddr rs1 imm) (s.readReg rs2)).advance

/-- `sh` (R161): `MemWrite(ea, 2, x[rs2])`. -/
def execSh (rs1 rs2 : RegIdx) (imm : Word) (s : State) : Host.Outcome State Fault Refusal :=
  .next (s.memWrite2 (s.effAddr rs1 imm) (s.readReg rs2)).advance

/-- `sw` (R162): `MemWrite(ea, 4, x[rs2])`. -/
def execSw (rs1 rs2 : RegIdx) (imm : Word) (s : State) : Host.Outcome State Fault Refusal :=
  .next (s.memWrite4 (s.effAddr rs1 imm) (s.readReg rs2)).advance

end Sys2Proof.Machine
end

