-- ==== Sys2Proof/Machine/UpperImmediate.lean ====
section
/-! DEFINITION. The upper-immediate instructions (spec/41_upper_immediate.md). -/

namespace Sys2Proof.Machine

/-- `lui rd, imm20` (R120): `x[rd] <- imm`. -/
def execLui (rd : RegIdx) (imm : Word) (s : State) : Host.Outcome State Fault Refusal :=
  .next (s.writeBack rd imm)

/-- `auipc rd, imm20` (R121): `x[rd] <- imm + pc`, with every bit of `pc`. -/
def execAuipc (rd : RegIdx) (imm : Word) (s : State) : Host.Outcome State Fault Refusal :=
  .next (s.writeBack rd (imm + s.pc))

end Sys2Proof.Machine
end

