-- ==== Sys2Proof/Machine/Invalid.lean ====
section
/-! DEFINITION. The Invalid operation (spec/48_invalid_and_system.md R210): what every word outside the 37 encodings
executes as, FENCE, ECALL, EBREAK and the CSR accesses among them (R212 to R215). -/

namespace Sys2Proof.Machine

/-- Invalid (R210): `pc <- pc`, "no register write, no memory write, out_valid = 0". Not a trap: nothing is saved
and no handler runs. -/
def execInvalid (s : State) : Host.Outcome State Fault Refusal := .next (s.setPc s.pc)

end Sys2Proof.Machine
end

