-- ==== Sys2Proof/Machine/Step.lean ====
section
/-! DEFINITION. One cycle (spec/40_execute_common.md R100), and the state in which a given word is the next one
fetched. -/

namespace Sys2Proof.Machine

/-- The word executed: the instruction it decodes to, or Invalid (R100). -/
def runWord (iw : Word) (s : State) : Host.Outcome State Fault Refusal :=
  match decode iw with
  | .ok i => exec i s
  | .error _ => execInvalid s

/-- One cycle: fetch, decode, execute, commit (R100). A build that breaks the constraints of 00_scope R5 is refused
(93_implementation_defined U10, log 8); no other state is. -/
def step (s : State) : Host.Outcome State Fault Refusal :=
  if legalBuild s.cfg then runWord s.fetchWord s.afterFetch else .refused .illegalBuild

/-- `s` with the instruction whose bits are `w` in the word of the image that `step` fetches next. It stands for the
host's placing a program in the image before the first cycle (70_reset_and_hazards R252, log 9). -/
def State.withFetchWord (s : State) (nbits w : Nat) : State :=
  let t := s.fetchable
  { t with mem := Memory.writeLanes t.mem (wordKey t.cfg t.pc) 0b1111#4 (BitVec.ofNat 32 (w % 2 ^ nbits)) }

end Sys2Proof.Machine
end

