-- ==== Sys2Proof/Machine/Boot.lean ====
section
/-! DEFINITION. The initial state of any build (spec/10_state.md R23 to R26, spec/70_reset_and_hazards.md R250 to
R252): what the host's construction of the machine gives, for every choice of the four constants, the image and the
arbitrary register contents. -/

namespace Sys2Proof.Machine

/-- `M[k]` set to the `k`-th word of the image, from word index `k` on (R25). -/
def Memory.placeFrom (c : Config) (m : Memory) (k : Nat) : List Word → Memory
  | [] => m
  | w :: rest => Memory.placeFrom c (Memory.writeLanes m (wordBase c k) 0b1111#4 w) (k + 1) rest

/-- The memory an image gives (R25). -/
def Memory.ofImage (c : Config) (image : List Word) : Memory := Memory.placeFrom c [] 0 image

/-- The image is the window: `MEM_END - MEM_BASE = 4 * N`, `N >= 1` (00_scope R5, 20_memory R34; log 13). -/
def imageFits (c : Config) (image : List Word) : Bool :=
  legalBuild c && decide (c.memEnd.toNat = c.memBase.toNat + 4 * image.length)

/-- The initial state (R26): `pc = RESET_PC`, `x[1 .. 31] = REG_INIT`, `M = IMAGE`, nothing driven on the port. -/
def initialState (c : Config) (image : List Word) (regInit : Vector Word 31) : State :=
  { cfg := c, pc := c.resetPc, regs := regInit, mem := Memory.ofImage c image, output := [], draws := 0 }

end Sys2Proof.Machine
end

