-- ==== Sys2Proof/Machine/Datapath.lean ====
section
/-! DEFINITION. The machine a second time, as the hardware is built: the decoded record drives the datapath of
spec/40_execute_common.md section 2, every signal of spec/10_state.md R21 is a combinational function of the state
at the start of the cycle, and one commit at the clock boundary ends the cycle (R105).

`step` does not use this file. That `State.cycle` and `step` agree is a statement of the package; it ties the
per-instruction meanings to the record, the byte enables, the write port and the output pair of the datapath. -/

namespace Sys2Proof.Machine

/-! ### The execute logic, from the record alone (40_execute_common R100) -/

/-- The operation reads the data channel. -/
def isLoad : Operation → Bool
  | .loadByte | .loadHalf | .loadWord | .loadByteU | .loadHalfU => true
  | _ => false

/-- The operation writes through the data channel. -/
def isStore : Operation → Bool
  | .storeByte | .storeHalf | .storeWord => true
  | _ => false

/-- The aligned load value: the selected lane, "sign-extended to 32 bits if `load_is_signed`, else zero-extended";
for a word, "full memory read data" (20_memory R46, 44_loads). -/
def alignedLoad (d : DecodedRecord) (ea data : Word) : Option Word :=
  match d.loadStoreWidth, d.loadIsSigned with
  | some .byte, some true => some ((selectByte data ea).signExtend 32)
  | some .byte, some false => some ((selectByte data ea).zeroExtend 32)
  | some .half, some true => some ((selectHalf data ea).signExtend 32)
  | some .half, some false => some ((selectHalf data ea).zeroExtend 32)
  | some .word, _ => some data
  | _, _ => none

/-- The byte enables of the width (20_memory R47). -/
def storeEnables (d : DecodedRecord) (ea : Word) : ByteEnable :=
  match d.loadStoreWidth with
  | some .byte => byteEnable1 ea
  | some .half => byteEnable2 ea
  | some .word => byteEnable4
  | none => 0b0000#4

/-- The replicated write data of the width (20_memory R47). -/
def storeData (d : DecodedRecord) (b : Word) : Option Word :=
  match d.loadStoreWidth with
  | some .byte => some (replicateByte b)
  | some .half => some (replicateHalf b)
  | some .word => some b
  | none => none

/-- The register-write column of the table of R100: `some v` where the operation enables the write, `none` where
the default, no write, stands (R104). `a` and `b` are the two register reads, `data` what the data channel
returned. -/
def registerWrite (d : DecodedRecord) (pc a b : Word) (data : Option Word) : Option Word :=
  match d.operation, d.immediate with
  | .loadUpperImm, some imm => some imm
  | .addUpperImmPC, some imm => some (imm + pc)
  | .jumpAndLink, _ => some (pc + 4#32)
  | .jumpAndLinkReg, _ => some (pc + 4#32)
  | .loadByte, some imm => data.bind (alignedLoad d (a + imm))
  | .loadHalf, some imm => data.bind (alignedLoad d (a + imm))
  | .loadWord, some imm => data.bind (alignedLoad d (a + imm))
  | .loadByteU, some imm => data.bind (alignedLoad d (a + imm))
  | .loadHalfU, some imm => data.bind (alignedLoad d (a + imm))
  | .addImm, some imm => some (a + imm)
  | .setLTImm, some imm => some (setIf (ltSigned a imm))
  | .setLTImmU, some imm => some (setIf (ltUnsigned a imm))
  | .xorImm, some imm => some (a ^^^ imm)
  | .orImm, some imm => some (a ||| imm)
  | .andImm, some imm => some (a &&& imm)
  | .shiftLeftImm, some imm => some (shiftLeft a (shiftAmount imm))
  | .shiftRightImm, some imm =>
    d.arithmeticVariant.map fun
      | .addShiftUnsigned => shiftRightUnsigned a (shiftAmount imm)
      | .subShiftSigned => shiftRightSigned a (shiftAmount imm)
  | .addOrSub, _ =>
    d.arithmeticVariant.map fun
      | .addShiftUnsigned => a + b
      | .subShiftSigned => a - b
  | .shiftLeft, _ => some (shiftLeft a (shiftAmount b))
  | .setLT, _ => some (setIf (ltSigned a b))
  | .setLTU, _ => some (setIf (ltUnsigned a b))
  | .xor, _ => some (a ^^^ b)
  | .shiftRight, _ =>
    d.arithmeticVariant.map fun
      | .addShiftUnsigned => shiftRightUnsigned a (shiftAmount b)
      | .subShiftSigned => shiftRightSigned a (shiftAmount b)
  | .or, _ => some (a ||| b)
  | .and, _ => some (a &&& b)
  | _, _ => none

/-- The next-pc column of the table of R100; the default is `pc + 4` (R104). -/
def nextPcOf (d : DecodedRecord) (pc a b : Word) : Word :=
  match d.operation, d.immediate with
  | .jumpAndLink, some imm => pc + imm
  | .jumpAndLinkReg, some imm => (a + imm) &&& 0xFFFFFFFE#32
  | .branchEQ, some imm => if a == b then pc + imm else pc + 4#32
  | .branchNE, some imm => if a != b then pc + imm else pc + 4#32
  | .branchLT, some imm => if ltSigned a b then pc + imm else pc + 4#32
  | .branchGE, some imm => if geSigned a b then pc + imm else pc + 4#32
  | .branchLTU, some imm => if ltUnsigned a b then pc + imm else pc + 4#32
  | .branchGEU, some imm => if geUnsigned a b then pc + imm else pc + 4#32
  | _, _ => pc + 4#32

/-! ### The signals of a cycle (10_state R21) -/

/-- The per-cycle signals. A signal the spec leaves unspecified in a cycle has no value there: those derived from
the record of an Invalid word, `write_data` with no write, `dmem_addr` of an operation without an immediate,
`dmem_rdata` where nothing reads it, `dmem_wdata` of an operation that does not store, `out_data` with
`out_valid = 0` (R21; 92_eei_decisions D12 to D14, log 15). -/
structure Signals where
  imemAddr : Word
  imemRdata : Word
  dec : Option DecodedRecord
  rs1Addr : Option RegIdx
  rs2Addr : Option RegIdx
  rs1Value : Option Word
  rs2Value : Option Word
  rdAddr : Option RegIdx
  writeEnable : Bool
  writeData : Option Word
  dmemAddr : Option Word
  dmemRdata : Option Word
  dmemWdata : Option Word
  dmemBe : ByteEnable
  nextPc : Word
  /-- `some b` iff `out_valid = 1`, and then `out_data = b`. -/
  outPort : Option Byte
  deriving DecidableEq, Repr

/-- The signals of a cycle whose word is Invalid: `write_enable = 0`, `dmem_be = 0`, `next_pc = pc` (R21). -/
def State.invalidSignals (s : State) (iw : Word) : Signals :=
  { imemAddr := s.pc, imemRdata := iw, dec := none
    rs1Addr := none, rs2Addr := none, rs1Value := none, rs2Value := none
    rdAddr := none, writeEnable := false, writeData := none
    dmemAddr := none, dmemRdata := none, dmemWdata := none, dmemBe := 0b0000#4
    nextPc := s.pc, outPort := none }

/-- What the data channel returns at an aligned address, where something depends on it: for a load always, for
another operation where the stored word settles it (R21, 20_memory R37, R51). -/
def State.dataRead (s : State) (op : Operation) (a : Word) : Option Word :=
  if isLoad op || inWindow s.cfg a then some (s.afterFetch.readWord a) else none

/-- The output pair: the operation is a store, `dmem_addr = OUT_ADDR` and `dmem_be[0] = 1` (20_memory R43). -/
def State.portOf (s : State) (op : Operation) (a : Word) (be : ByteEnable) (d : Word) : Option Byte :=
  if isStore op && a == s.cfg.outAddr && be.getLsbD 0 then some (lane d 0) else none

/-- The signals of a cycle that executes the record `d` decoded from `iw` (R21). -/
def State.recordSignals (s : State) (iw : Word) (d : DecodedRecord) : Signals :=
  let a := s.readReg d.rs1
  let b := s.readReg d.rs2
  let ea := d.immediate.map (a + ·)
  let dmemAddr := ea.map wordAlign
  let dmemRdata := dmemAddr.bind (s.dataRead d.operation)
  let written := registerWrite d s.pc a b dmemRdata
  let be := if isStore d.operation then (ea.map (storeEnables d)).getD 0b0000#4 else 0b0000#4
  let wdata := if isStore d.operation then storeData d b else none
  { imemAddr := s.pc, imemRdata := iw, dec := some d
    rs1Addr := some d.rs1, rs2Addr := some d.rs2, rs1Value := some a, rs2Value := some b
    rdAddr := some d.rd, writeEnable := written.isSome, writeData := written
    dmemAddr := dmemAddr, dmemRdata := dmemRdata, dmemWdata := wdata, dmemBe := be
    nextPc := nextPcOf d s.pc a b
    outPort := dmemAddr.bind fun addr => wdata.bind fun data => s.portOf d.operation addr be data }

/-- The signals of the cycle that starts in `s`. -/
def State.signals (s : State) : Signals :=
  match decodeRecord s.fetchWord with
  | none => s.invalidSignals s.fetchWord
  | some d => s.recordSignals s.fetchWord d

/-! ### The clock boundary (10_state R13, 20_memory R39, 40_execute_common R105) -/

/-- The register file after the write port's triple (10_state R13). -/
def State.regsAfter (s : State) (g : Signals) : Vector Word 31 :=
  match g.writeEnable, g.rdAddr, g.writeData with
  | true, some rd, some v => (s.writeReg rd v).regs
  | _, _, _ => s.regs

/-- The word array after the data channel's write; a store to the sentinel stores nothing (20_memory R39). -/
def State.memAfter (s : State) (g : Signals) : Memory :=
  match g.dmemAddr, g.dmemWdata with
  | some a, some d =>
    if a != s.cfg.outAddr && inWindow s.cfg a then Memory.writeLanes s.mem (wordKey s.cfg a) g.dmemBe d else s.mem
  | _, _ => s.mem

/-- How many out-of-window reads the cycle made: the fetch, and the data read of a load (20_memory R38; log 5). -/
def State.drawsIn (s : State) (g : Signals) : Nat :=
  (if inWindow s.cfg g.imemAddr then 0 else 1) +
    match g.dec, g.dmemAddr with
    | some d, some a => if isLoad d.operation && !inWindow s.cfg a then 1 else 0
    | _, _ => 0

/-- All updates of the cycle at once, each from the state at its start (R105). -/
def State.commit (s : State) (g : Signals) : State :=
  { cfg := s.cfg
    pc := g.nextPc
    regs := s.regsAfter g
    mem := s.memAfter g
    output := s.output ++ g.outPort.toList
    draws := s.draws + s.drawsIn g }

/-- One cycle of the datapath. -/
def State.cycle (s : State) : State := s.commit s.signals

end Sys2Proof.Machine
end

