-- ==== Sys2Proof/Safety.lean ====
section
/-! DEFINITION. The terms claims are made in: what a good state is, what a step may change, what a disciplined run is
(spec/70_reset_and_hazards.md R253), and the end of a run (R263). -/

namespace Sys2Proof.Machine

/-! ### The invariant -/

/-- Every listed byte is at an address of the window (20_memory R31: outside it there is no storage). -/
def State.memInWindow (s : State) : Bool :=
  s.mem.all fun c => decide (s.cfg.memBase.toNat ≤ c.1 ∧ c.1 < s.cfg.memEnd.toNat)

/-- The build is legal (00_scope R5), memory is in canonical form, and only the window has storage. -/
structure State.Inv (s : State) : Prop where
  legal : legalBuild s.cfg = true
  canonical : Memory.wf s.mem = true
  stored : s.memInWindow = true

/-! ### What a step changes and what it leaves -/

/-- Every register is as before. -/
def RegsKept (s t : State) : Prop := ∀ r : RegIdx, t.readReg r = s.readReg r

/-- `x[rd]` holds `v`, register 0 still reads as zero, and every other register is as before (10_state R12). -/
def RegWritten (s t : State) (rd : RegIdx) (v : Word) : Prop :=
  ∀ r : RegIdx, t.readReg r = if r = rd ∧ r ≠ 0#5 then v else s.readReg r

/-- Every byte of memory reads as before. -/
def MemKept (s t : State) : Prop := ∀ n : Nat, Memory.readByte t.mem n = Memory.readByte s.mem n

/-- Nothing beside `pc`, registers and memory has changed: the build's constants, the port's stream and the number
of free values used up. -/
def RestKept (s t : State) : Prop := t.cfg = s.cfg ∧ t.output = s.output ∧ t.draws = s.draws

/-- The step is a register result: `x[rd] <- v`, `pc <- next`, and all else is as before. -/
def RegisterResult (s t : State) (rd : RegIdx) (v next : Word) : Prop :=
  RegWritten s t rd v ∧ t.pc = next ∧ MemKept s t ∧ RestKept s t

/-- The step is a pure jump: `pc <- next`, and all else is as before. -/
def JumpResult (s t : State) (next : Word) : Prop :=
  RegsKept s t ∧ t.pc = next ∧ MemKept s t ∧ RestKept s t

/-- The effective address `x[rs1] + imm` of a load, a store or `jalr` (40_execute_common R103). -/
def effectiveAddress (s : State) : Instr → Option Word
  | .jalr _ rs1 imm | .lb _ rs1 imm | .lh _ rs1 imm | .lw _ rs1 imm | .lbu _ rs1 imm | .lhu _ rs1 imm
  | .sb rs1 _ imm | .sh rs1 _ imm | .sw rs1 _ imm => some (s.effAddr rs1 imm)
  | _ => none

/-- The instruction is one of the five loads. -/
def isLoadInstr : Instr → Bool
  | .lb _ _ _ | .lh _ _ _ | .lw _ _ _ | .lbu _ _ _ | .lhu _ _ _ => true
  | _ => false

/-- The register an instruction writes (10_state R13): LUI, AUIPC, JAL, JALR, the loads and the ALU instructions;
"Branches, stores and Invalid never do". -/
def destination : Instr → Option RegIdx
  | .lui rd _ | .auipc rd _ | .jal rd _ | .jalr rd _ _ => some rd
  | .lb rd _ _ | .lh rd _ _ | .lw rd _ _ | .lbu rd _ _ | .lhu rd _ _ => some rd
  | .addi rd _ _ | .slti rd _ _ | .sltiu rd _ _ | .xori rd _ _ | .ori rd _ _ | .andi rd _ _ => some rd
  | .slli rd _ _ | .srli rd _ _ | .srai rd _ _ => some rd
  | .add rd _ _ | .sub rd _ _ | .sll rd _ _ | .slt rd _ _ | .sltu rd _ _ => some rd
  | .xor rd _ _ | .srl rd _ _ | .sra rd _ _ | .or rd _ _ | .and rd _ _ => some rd
  | .beq _ _ _ | .bne _ _ _ | .blt _ _ _ | .bge _ _ _ | .bltu _ _ _ | .bgeu _ _ _ => none
  | .sb _ _ _ | .sh _ _ _ | .sw _ _ _ => none

/-- The effective address of a store and the enables it drives (20_memory R47); `none` for every other
instruction. -/
def storeTarget (s : State) : Instr → Option (Word × ByteEnable)
  | .sb rs1 _ imm => some (s.effAddr rs1 imm, byteEnable1 (s.effAddr rs1 imm))
  | .sh rs1 _ imm => some (s.effAddr rs1 imm, byteEnable2 (s.effAddr rs1 imm))
  | .sw rs1 _ imm => some (s.effAddr rs1 imm, byteEnable4)
  | _ => none

/-! ### Disciplined states, and the end of a run -/

/-- R253(c): `pc` is in the window, and so is the aligned address of the load executed, if one is. Such a state uses
no free value. -/
def State.disciplined (s : State) : Bool :=
  inWindow s.cfg s.pc &&
    match decode s.fetchWord with
    | .ok i =>
      match isLoadInstr i, effectiveAddress s i with
      | true, some ea => inWindow s.cfg (wordAlign ea)
      | _, _ => true
    | .error _ => true

/-- R263: `pc` is in the window and the word there is Invalid (92_eei_decisions D19, log 16). -/
def State.halted (s : State) : Bool := inWindow s.cfg s.pc && !recognised s.fetchWord

end Sys2Proof.Machine
end

