-- ==== Sys2Proof/Certificates/Slice0/Obligations.lean ====
section
/-! DEFINITION. The statements for the provers. Each docstring names the rule of spec/ it formalises; a statement
that rests on a choice of the model names the log entry. -/

open Sys2Proof Sys2Proof.Machine

/-! ### Encoding -/

/-- Words the spec writes out decode to the instructions it says: the document's four scenarios and one word of every
other family (95_test_vectors sections 1.1 and 3.1). -/
def Obligations.DecodesTheSpecsWords : Prop :=
  decode 0x12345637#32 = .ok (.lui 12#5 0x12345000#32) ∧
  decode 0x12345FEF#32 = .ok (.jal 31#5 0x00045922#32) ∧
  decode 0x82386293#32 = .ok (.ori 5#5 16#5 0xFFFFF823#32) ∧
  decode 0x44CA0B23#32 = .ok (.sb 20#5 12#5 0x00000456#32) ∧
  decode 0x005300E7#32 = .ok (.jalr 1#5 6#5 0x00000005#32) ∧
  decode 0x8020F063#32 = .ok (.bgeu 1#5 2#5 0xFFFFF000#32) ∧
  decode 0x0022D503#32 = .ok (.lhu 10#5 5#5 0x00000002#32) ∧
  decode 0x4042D313#32 = .ok (.srai 6#5 5#5 4#5) ∧
  decode 0x406283B3#32 = .ok (.sub 7#5 5#5 6#5)

/-- Decode after encode: for every well-formed instruction, at every value of every operand (95_test_vectors
section 6 item 9; the range of each operand is `Instr.wellFormed`). -/
def Obligations.DecodeInvertsEncode : Prop :=
  ∀ i : Instr, i.wellFormed = true → decode (encode i) = .ok i

/-- Encode after decode: what the decoder answers is well-formed, and the word it read is the only word that stands
for it (30_encoding R74: every bit of a recognised word is a fixed bit or an operand bit). -/
def Obligations.EncodeInvertsDecode : Prop :=
  ∀ (w : Word) (i : Instr), decode w = .ok i → i.wellFormed = true ∧ encode i = w

/-- Bit by bit, which instruction bit each immediate bit is (30_encoding R63 to R66; R62 is stated but for its remark
on the shifts), the range of each format, and the round trip of each format's encoder. -/
def Obligations.ImmediatesAreTheirBits : Prop :=
  (∀ (w : Word) (i : Nat), i < 32 →
    ((immI w).getLsbD i = if i < 11 then w.getLsbD (20 + i) else w.getLsbD 31) ∧
    ((immS w).getLsbD i = if i < 5 then w.getLsbD (7 + i) else if i < 11 then w.getLsbD (20 + i) else w.getLsbD 31) ∧
    ((immB w).getLsbD i =
      if i = 0 then false else if i < 5 then w.getLsbD (7 + i) else if i < 11 then w.getLsbD (20 + i)
      else if i = 11 then w.getLsbD 7 else w.getLsbD 31) ∧
    ((immU w).getLsbD i = if i < 12 then false else w.getLsbD i) ∧
    ((immJ w).getLsbD i =
      if i = 0 then false else if i < 11 then w.getLsbD (20 + i) else if i = 11 then w.getLsbD 20
      else if i < 20 then w.getLsbD i else w.getLsbD 31)) ∧
  (∀ w : Word, immU w = w &&& 0xFFFFF000#32) ∧
  (∀ w : Word, fitsImm12 (immI w) = true ∧ fitsImm12 (immS w) = true ∧ fitsImmB (immB w) = true ∧
    fitsImmU (immU w) = true ∧ fitsImmJ (immJ w) = true) ∧
  (∀ (v : Word) (f3 : BitVec 3) (op : BitVec 7) (r r' : RegIdx),
    (fitsImm12 v = true → immI (encodeI f3 op r r' v) = v ∧ immS (encodeS f3 op r r' v) = v) ∧
    (fitsImmB v = true → immB (encodeB f3 op r r' v) = v) ∧
    (fitsImmU v = true → immU (encodeU op r v) = v) ∧
    (fitsImmJ v = true → immJ (encodeJ op r v) = v))

/-- The 37 rows are pairwise disjoint, and a word is recognised iff it matches one (95_test_vectors section 1.2 T1
and section 6 item 2). -/
def Obligations.OpcodeRowsPartitionWords : Prop :=
  ∀ w : Word, (opcodeTable.filter (·.matchesWord w)).length ≤ 1 ∧
    (recognised w = true ↔ ∃ r ∈ opcodeTable, r.matchesWord w = true)

/-- The Invalid space, and that it has the one behaviour (derived by the spec in 30_encoding R76; its words with bit 30
set are decision D8, log 7). -/
def Obligations.InvalidSpaceEnumerated : Prop :=
  ∀ w : Word,
    (recognised w = false ↔ ∀ r ∈ opcodeTable, r.matchesWord w = false) ∧
    (recognised w = false ↔
      opcode w ∉ [0b0110111#7, 0b0010111#7, 0b1101111#7, 0b1100111#7, 0b1100011#7, 0b0000011#7, 0b0100011#7,
        0b0010011#7, 0b0110011#7] ∨
      (opcode w = 0b1100111#7 ∧ funct3 w ≠ 0b000#3) ∨
      (opcode w = 0b1100011#7 ∧ (funct3 w = 0b010#3 ∨ funct3 w = 0b011#3)) ∨
      (opcode w = 0b0000011#7 ∧ (funct3 w = 0b011#3 ∨ funct3 w = 0b110#3 ∨ funct3 w = 0b111#3)) ∨
      (opcode w = 0b0100011#7 ∧ 3 ≤ (funct3 w).toNat) ∨
      (opcode w = 0b0010011#7 ∧ funct3 w = 0b001#3 ∧ funct7 w ≠ 0b0000000#7) ∨
      (opcode w = 0b0010011#7 ∧ funct3 w = 0b101#3 ∧ funct7 w ≠ 0b0000000#7 ∧ funct7 w ≠ 0b0100000#7) ∨
      (opcode w = 0b0110011#7 ∧ (funct3 w = 0b000#3 ∨ funct3 w = 0b101#3) ∧ funct7 w ≠ 0b0000000#7 ∧
        funct7 w ≠ 0b0100000#7) ∨
      (opcode w = 0b0110011#7 ∧ funct3 w ≠ 0b000#3 ∧ funct3 w ≠ 0b101#3 ∧ funct7 w ≠ 0b0000000#7)) ∧
    (recognised w = false → ∀ s : State, runWord w s = .next s)

/-- How strictly funct7 is matched (30_encoding R75, the spec's own reading D8; log 7): (a) bits 31 and 29:25,
(b) bit 30, (c) the six immediate forms without a funct7. -/
def Obligations.Funct7IsMatchedStrictly : Prop :=
  ∀ w : Word,
    ((opcode w = 0b0110011#7 ∨ opcode w = 0b0010011#7 ∧ (funct3 w = 0b001#3 ∨ funct3 w = 0b101#3)) →
      ((w.getLsbD 31 = true ∨ w.extractLsb' 25 5 ≠ 0b00000#5) → recognised w = false) ∧
      (w.getLsbD 31 = false → w.extractLsb' 25 5 = 0b00000#5 → w.getLsbD 30 = false → recognised w = true) ∧
      (w.getLsbD 31 = false → w.extractLsb' 25 5 = 0b00000#5 → w.getLsbD 30 = true →
        (recognised w = true ↔ (opcode w = 0b0110011#7 ∧ funct3 w = 0b000#3) ∨ funct3 w = 0b101#3))) ∧
    (opcode w = 0b0010011#7 → funct3 w ≠ 0b001#3 → funct3 w ≠ 0b101#3 → recognised w = true)

/-- FENCE and FENCE.I, ECALL and EBREAK, the CSR accesses and the other SYSTEM encodings halt in place: every word of
their two opcodes is Invalid and leaves the whole state as it is (48_invalid_and_system R212 to R214), and so is every
word whose low two bits are not `11` (30_encoding R78). -/
def Obligations.AbsentInstructionsHaltInPlace : Prop :=
  ∀ (w : Word) (s : State),
    (opcode w = 0b0001111#7 ∨ opcode w = 0b1110011#7 ∨ w.extractLsb' 0 2 ≠ 0b11#2) →
      recognised w = false ∧ runWord w s = .next s

/-! ### Results, instruction by instruction

Each statement gives the encoding of each instruction it covers (every word of its row of 30_encoding R74 decodes to
it, with the operands of its rule; the row's numbers are the spec's from general knowledge, log 10), that it completes
from every state, and all it does and leaves: registers, `pc`, memory, the output port, the build's constants and the
free values. -/

/-- Every word of a row of R74 decodes to the instruction `build` makes of its fields. -/
def EncodedBy (mask pattern : Word) (build : Word → Instr) : Prop :=
  ∀ w : Word, w &&& mask = pattern → decode w = .ok (build w)

/-- The instruction answers a next state in which `x[rd]` holds a value of which `value` is true, `pc` has advanced,
and all else is as before. -/
def WritesRegister (i : Instr) (s : State) (rd : RegIdx) (value : Word → Prop) : Prop :=
  ∃ (t : State) (v : Word), exec i s = .next t ∧ value v ∧ RegisterResult s t rd v (s.pc + 4#32)

/-- The instruction answers a next state in which only `pc` has changed, to `next`. -/
def OnlyJumps (i : Instr) (s : State) (next : Word) : Prop :=
  ∃ t : State, exec i s = .next t ∧ JumpResult s t next

/-- LUI and AUIPC (41_upper_immediate R120, R121). -/
def Obligations.UpperImmediateResults : Prop :=
  EncodedBy 0x0000007F#32 0x00000037#32 (fun w => .lui (rdField w) (w &&& 0xFFFFF000#32)) ∧
  EncodedBy 0x0000007F#32 0x00000017#32 (fun w => .auipc (rdField w) (w &&& 0xFFFFF000#32)) ∧
  ∀ (rd : RegIdx) (imm : Word) (s : State),
    WritesRegister (.lui rd imm) s rd (· = imm) ∧
    WritesRegister (.auipc rd imm) s rd fun v => v.toNat = (imm.toNat + s.pc.toNat) % 2 ^ 32

/-- JAL and JALR (42_jumps R130, R131): the link is `pc + 4` also when `rd = rs1`, the target is computed from the
old registers and never checked. -/
def Obligations.JumpResults : Prop :=
  EncodedBy 0x0000007F#32 0x0000006F#32 (fun w => .jal (rdField w) (immJ w)) ∧
  EncodedBy 0x0000707F#32 0x00000067#32 (fun w => .jalr (rdField w) (rs1Field w) (immI w)) ∧
  (∀ w : Word, opcode w = 0b1100111#7 → funct3 w ≠ 0b000#3 → recognised w = false) ∧
  ∀ (rd rs1 : RegIdx) (imm : Word) (s : State),
    (∃ t : State, exec (.jal rd imm) s = .next t ∧ RegisterResult s t rd (s.pc + 4#32) (s.pc + imm)) ∧
    (∃ (t : State) (target : Word), exec (.jalr rd rs1 imm) s = .next t ∧
      target.toNat = ((s.readReg rs1).toNat + imm.toNat) % 2 ^ 32 / 2 * 2 ∧
      RegisterResult s t rd (s.pc + 4#32) target)

/-- BEQ and BNE (43_branches R140, R141). -/
def Obligations.EqualityBranchResults : Prop :=
  EncodedBy 0x0000707F#32 0x00000063#32 (fun w => .beq (rs1Field w) (rs2Field w) (immB w)) ∧
  EncodedBy 0x0000707F#32 0x00001063#32 (fun w => .bne (rs1Field w) (rs2Field w) (immB w)) ∧
  ∀ (rs1 rs2 : RegIdx) (imm : Word) (s : State),
    OnlyJumps (.beq rs1 rs2 imm) s (if s.readReg rs1 = s.readReg rs2 then s.pc + imm else s.pc + 4#32) ∧
    OnlyJumps (.bne rs1 rs2 imm) s (if s.readReg rs1 ≠ s.readReg rs2 then s.pc + imm else s.pc + 4#32)

/-- BLT and BGE: the operands as two's complement (43_branches R142, R143). -/
def Obligations.SignedBranchResults : Prop :=
  EncodedBy 0x0000707F#32 0x00004063#32 (fun w => .blt (rs1Field w) (rs2Field w) (immB w)) ∧
  EncodedBy 0x0000707F#32 0x00005063#32 (fun w => .bge (rs1Field w) (rs2Field w) (immB w)) ∧
  ∀ (rs1 rs2 : RegIdx) (imm : Word) (s : State),
    OnlyJumps (.blt rs1 rs2 imm) s
      (if (s.readReg rs1).toInt < (s.readReg rs2).toInt then s.pc + imm else s.pc + 4#32) ∧
    OnlyJumps (.bge rs1 rs2 imm) s
      (if (s.readReg rs2).toInt ≤ (s.readReg rs1).toInt then s.pc + imm else s.pc + 4#32)

/-- BLTU and BGEU: the operands as non-negative numbers (43_branches R144, R145). -/
def Obligations.UnsignedBranchResults : Prop :=
  EncodedBy 0x0000707F#32 0x00006063#32 (fun w => .bltu (rs1Field w) (rs2Field w) (immB w)) ∧
  EncodedBy 0x0000707F#32 0x00007063#32 (fun w => .bgeu (rs1Field w) (rs2Field w) (immB w)) ∧
  ∀ (rs1 rs2 : RegIdx) (imm : Word) (s : State),
    OnlyJumps (.bltu rs1 rs2 imm) s
      (if (s.readReg rs1).toNat < (s.readReg rs2).toNat then s.pc + imm else s.pc + 4#32) ∧
    OnlyJumps (.bgeu rs1 rs2 imm) s
      (if (s.readReg rs2).toNat ≤ (s.readReg rs1).toNat then s.pc + imm else s.pc + 4#32)

/-- The word a load at `ea` obtains: the four bytes at the aligned address, lowest address in the lowest lane, if it
is in the window; else the next free value (20_memory R37, R38, R41, R46). -/
def loadedWord (s : State) (ea : Word) : Word :=
  if inWindow s.cfg (wordAlign ea) then
    Memory.readByte s.mem (ea.toNat / 4 * 4 + 3) ++ Memory.readByte s.mem (ea.toNat / 4 * 4 + 2) ++
      Memory.readByte s.mem (ea.toNat / 4 * 4 + 1) ++ Memory.readByte s.mem (ea.toNat / 4 * 4)
  else Config.any32 s.draws

/-- The load answers a next state in which `x[rd]` holds `v`, `pc` has advanced, and all else is as before, but that
a read outside the window has used up one free value (log 4). -/
def LoadsRegister (i : Instr) (s : State) (rd : RegIdx) (ea v : Word) : Prop :=
  ∃ t : State, exec i s = .next t ∧ RegWritten s t rd v ∧ t.pc = s.pc + 4#32 ∧ MemKept s t ∧ t.cfg = s.cfg ∧
    t.output = s.output ∧ t.draws = if inWindow s.cfg (wordAlign ea) then s.draws else s.draws + 1

/-- LB and LBU, at every effective address, in the window and outside it (44_loads R150, R153). -/
def Obligations.ByteLoadResults : Prop :=
  EncodedBy 0x0000707F#32 0x00000003#32 (fun w => .lb (rdField w) (rs1Field w) (immI w)) ∧
  EncodedBy 0x0000707F#32 0x00004003#32 (fun w => .lbu (rdField w) (rs1Field w) (immI w)) ∧
  ∀ (rd rs1 : RegIdx) (imm : Word) (s : State), legalBuild s.cfg = true →
    let ea := s.readReg rs1 + imm
    let b : BitVec 8 := (loadedWord s ea).extractLsb' (8 * (ea.toNat % 4)) 8
    LoadsRegister (.lb rd rs1 imm) s rd ea (b.signExtend 32) ∧
    LoadsRegister (.lbu rd rs1 imm) s rd ea (b.zeroExtend 32)

/-- LH and LHU: bit 1 of the effective address selects the half, bit 0 is ignored (44_loads R151, R154). -/
def Obligations.HalfLoadResults : Prop :=
  EncodedBy 0x0000707F#32 0x00001003#32 (fun w => .lh (rdField w) (rs1Field w) (immI w)) ∧
  EncodedBy 0x0000707F#32 0x00005003#32 (fun w => .lhu (rdField w) (rs1Field w) (immI w)) ∧
  ∀ (rd rs1 : RegIdx) (imm : Word) (s : State), legalBuild s.cfg = true →
    let ea := s.readReg rs1 + imm
    let h : BitVec 16 := (loadedWord s ea).extractLsb' (16 * (ea.toNat / 2 % 2)) 16
    LoadsRegister (.lh rd rs1 imm) s rd ea (h.signExtend 32) ∧
    LoadsRegister (.lhu rd rs1 imm) s rd ea (h.zeroExtend 32)

/-- LW: the word at the aligned address, whatever the low two bits (44_loads R152). -/
def Obligations.WordLoadResult : Prop :=
  EncodedBy 0x0000707F#32 0x00002003#32 (fun w => .lw (rdField w) (rs1Field w) (immI w)) ∧
  ∀ (rd rs1 : RegIdx) (imm : Word) (s : State), legalBuild s.cfg = true →
    LoadsRegister (.lw rd rs1 imm) s rd (s.readReg rs1 + imm) (loadedWord s (s.readReg rs1 + imm))

/-- The store at `ea` answers a next state in which `pc` has advanced and, first of these that applies: at the
sentinel the bytes `emitted` follow on the port and nothing is stored; in the window byte `n` of memory is `stored n`
where that is given and as before elsewhere; else nothing has changed (20_memory R39, R40, R43). No register
changes. -/
def StoresBytes (i : Instr) (s : State) (ea : Word) (emitted : List Byte) (stored : Nat → Option Byte) : Prop :=
  ∃ t : State, exec i s = .next t ∧ RegsKept s t ∧ t.pc = s.pc + 4#32 ∧ t.cfg = s.cfg ∧ t.draws = s.draws ∧
    if wordAlign ea = s.cfg.outAddr then MemKept s t ∧ t.output = s.output ++ emitted
    else t.output = s.output ∧
      if inWindow s.cfg (wordAlign ea) then
        ∀ n : Nat, Memory.readByte t.mem n = (stored n).getD (Memory.readByte s.mem n)
      else MemKept s t

/-- SB: the one byte at the effective address; on the port only at `OUT_ADDR` exactly (45_stores R160). -/
def Obligations.ByteStoreResult : Prop :=
  EncodedBy 0x0000707F#32 0x00000023#32 (fun w => .sb (rs1Field w) (rs2Field w) (immS w)) ∧
  ∀ (rs1 rs2 : RegIdx) (imm : Word) (s : State), legalBuild s.cfg = true →
    let ea := s.readReg rs1 + imm
    let v := s.readReg rs2
    StoresBytes (.sb rs1 rs2 imm) s ea (if ea = s.cfg.outAddr then [v.extractLsb' 0 8] else [])
      fun n => if n = ea.toNat then some (v.extractLsb' 0 8) else none

/-- SH: the two bytes of the half that holds the effective address; on the port for offsets 0 and 1 (45_stores
R161). -/
def Obligations.HalfStoreResult : Prop :=
  EncodedBy 0x0000707F#32 0x00001023#32 (fun w => .sh (rs1Field w) (rs2Field w) (immS w)) ∧
  ∀ (rs1 rs2 : RegIdx) (imm : Word) (s : State), legalBuild s.cfg = true →
    let ea := s.readReg rs1 + imm
    let v := s.readReg rs2
    StoresBytes (.sh rs1 rs2 imm) s ea (if ea.toNat / 2 % 2 = 0 then [v.extractLsb' 0 8] else [])
      fun n => if n = ea.toNat / 2 * 2 then some (v.extractLsb' 0 8)
        else if n = ea.toNat / 2 * 2 + 1 then some (v.extractLsb' 8 8) else none

/-- SW: the four bytes of the word that holds the effective address; on the port for offsets 0 to 3 (45_stores
R162). -/
def Obligations.WordStoreResult : Prop :=
  EncodedBy 0x0000707F#32 0x00002023#32 (fun w => .sw (rs1Field w) (rs2Field w) (immS w)) ∧
  ∀ (rs1 rs2 : RegIdx) (imm : Word) (s : State), legalBuild s.cfg = true →
    let ea := s.readReg rs1 + imm
    let v := s.readReg rs2
    StoresBytes (.sw rs1 rs2 imm) s ea [v.extractLsb' 0 8]
      fun n => if ea.toNat / 4 * 4 ≤ n ∧ n < ea.toNat / 4 * 4 + 4
        then some (v.extractLsb' (8 * (n - ea.toNat / 4 * 4)) 8) else none

/-- ADDI, ADD and SUB, modulo 2^32 (46_alu_immediate R170, 47_alu_register R190, R191). -/
def Obligations.AddSubResults : Prop :=
  EncodedBy 0x0000707F#32 0x00000013#32 (fun w => .addi (rdField w) (rs1Field w) (immI w)) ∧
  EncodedBy 0xFE00707F#32 0x00000033#32 (fun w => .add (rdField w) (rs1Field w) (rs2Field w)) ∧
  EncodedBy 0xFE00707F#32 0x40000033#32 (fun w => .sub (rdField w) (rs1Field w) (rs2Field w)) ∧
  ∀ (rd rs1 rs2 : RegIdx) (imm : Word) (s : State),
    let a := (s.readReg rs1).toNat
    let b := (s.readReg rs2).toNat
    WritesRegister (.addi rd rs1 imm) s rd (fun v => v.toNat = (a + imm.toNat) % 2 ^ 32) ∧
    WritesRegister (.add rd rs1 rs2) s rd (fun v => v.toNat = (a + b) % 2 ^ 32) ∧
    WritesRegister (.sub rd rs1 rs2) s rd (fun v => v.toNat = (a + 2 ^ 32 - b) % 2 ^ 32)

/-- XORI, ORI, ANDI, XOR, OR and AND, bit by bit (46_alu_immediate R173 to R175, 47_alu_register R195, R198,
R199). -/
def Obligations.LogicResults : Prop :=
  EncodedBy 0x0000707F#32 0x00004013#32 (fun w => .xori (rdField w) (rs1Field w) (immI w)) ∧
  EncodedBy 0x0000707F#32 0x00006013#32 (fun w => .ori (rdField w) (rs1Field w) (immI w)) ∧
  EncodedBy 0x0000707F#32 0x00007013#32 (fun w => .andi (rdField w) (rs1Field w) (immI w)) ∧
  EncodedBy 0xFE00707F#32 0x00004033#32 (fun w => .xor (rdField w) (rs1Field w) (rs2Field w)) ∧
  EncodedBy 0xFE00707F#32 0x00006033#32 (fun w => .or (rdField w) (rs1Field w) (rs2Field w)) ∧
  EncodedBy 0xFE00707F#32 0x00007033#32 (fun w => .and (rdField w) (rs1Field w) (rs2Field w)) ∧
  ∀ (rd rs1 rs2 : RegIdx) (imm : Word) (s : State),
    let a := s.readReg rs1
    let b := s.readReg rs2
    WritesRegister (.xori rd rs1 imm) s rd (fun v => ∀ k < 32, v.getLsbD k = (a.getLsbD k ^^ imm.getLsbD k)) ∧
    WritesRegister (.ori rd rs1 imm) s rd (fun v => ∀ k < 32, v.getLsbD k = (a.getLsbD k || imm.getLsbD k)) ∧
    WritesRegister (.andi rd rs1 imm) s rd (fun v => ∀ k < 32, v.getLsbD k = (a.getLsbD k && imm.getLsbD k)) ∧
    WritesRegister (.xor rd rs1 rs2) s rd (fun v => ∀ k < 32, v.getLsbD k = (a.getLsbD k ^^ b.getLsbD k)) ∧
    WritesRegister (.or rd rs1 rs2) s rd (fun v => ∀ k < 32, v.getLsbD k = (a.getLsbD k || b.getLsbD k)) ∧
    WritesRegister (.and rd rs1 rs2) s rd (fun v => ∀ k < 32, v.getLsbD k = (a.getLsbD k && b.getLsbD k))

/-- SLLI, SRLI and SRAI (46_alu_immediate R176 to R178): `<<` keeps the low 32 bits of the product, `>>u` divides the
unsigned value and `>>s` the signed value by a power of two, rounding down; the decoded immediate of an SRAI
word is `0x400` above its shift amount, which alone is used. That a left-shift word with any nonzero funct7 is Invalid
rests, for `0100000`, on the spec's decision D8 (30_encoding R75(b), doubted in 93_implementation_defined U6), which is
the model's choice, log 7. -/
def Obligations.ImmediateShiftResults : Prop :=
  EncodedBy 0xFE00707F#32 0x00001013#32 (fun w => .slli (rdField w) (rs1Field w) (rs2Field w)) ∧
  EncodedBy 0xFE00707F#32 0x00005013#32 (fun w => .srli (rdField w) (rs1Field w) (rs2Field w)) ∧
  EncodedBy 0xFE00707F#32 0x40005013#32 (fun w => .srai (rdField w) (rs1Field w) (rs2Field w)) ∧
  ∀ (rd rs1 : RegIdx) (shamt : BitVec 5) (s : State),
    let a := s.readReg rs1
    WritesRegister (.slli rd rs1 shamt) s rd (fun v => v.toNat = a.toNat * 2 ^ shamt.toNat % 2 ^ 32) ∧
    WritesRegister (.srli rd rs1 shamt) s rd (fun v => v.toNat = a.toNat / 2 ^ shamt.toNat) ∧
    WritesRegister (.srai rd rs1 shamt) s rd (fun v => v.toInt = a.toInt / 2 ^ shamt.toNat) ∧
    (∀ w : Word, opcode w = 0b0010011#7 → funct3 w = 0b001#3 → funct7 w ≠ 0b0000000#7 → recognised w = false) ∧
    ∀ w : Word, w &&& 0xFE00707F#32 = 0x40005013#32 → immI w = 0x00000400#32 + (rs2Field w).zeroExtend 32

/-- SLL, SRL and SRA: the amount is the register's value modulo 32 (47_alu_register R192, R196, R197). -/
def Obligations.RegisterShiftResults : Prop :=
  EncodedBy 0xFE00707F#32 0x00001033#32 (fun w => .sll (rdField w) (rs1Field w) (rs2Field w)) ∧
  EncodedBy 0xFE00707F#32 0x00005033#32 (fun w => .srl (rdField w) (rs1Field w) (rs2Field w)) ∧
  EncodedBy 0xFE00707F#32 0x40005033#32 (fun w => .sra (rdField w) (rs1Field w) (rs2Field w)) ∧
  ∀ (rd rs1 rs2 : RegIdx) (s : State),
    let a := s.readReg rs1
    let n := (s.readReg rs2).toNat % 32
    WritesRegister (.sll rd rs1 rs2) s rd (fun v => v.toNat = a.toNat * 2 ^ n % 2 ^ 32) ∧
    WritesRegister (.srl rd rs1 rs2) s rd (fun v => v.toNat = a.toNat / 2 ^ n) ∧
    WritesRegister (.sra rd rs1 rs2) s rd (fun v => v.toInt = a.toInt / 2 ^ n)

/-- SLTI, SLTIU, SLT and SLTU (46_alu_immediate R171, R172, 47_alu_register R193, R194). -/
def Obligations.SetLessThanResults : Prop :=
  EncodedBy 0x0000707F#32 0x00002013#32 (fun w => .slti (rdField w) (rs1Field w) (immI w)) ∧
  EncodedBy 0x0000707F#32 0x00003013#32 (fun w => .sltiu (rdField w) (rs1Field w) (immI w)) ∧
  EncodedBy 0xFE00707F#32 0x00002033#32 (fun w => .slt (rdField w) (rs1Field w) (rs2Field w)) ∧
  EncodedBy 0xFE00707F#32 0x00003033#32 (fun w => .sltu (rdField w) (rs1Field w) (rs2Field w)) ∧
  ∀ (rd rs1 rs2 : RegIdx) (imm : Word) (s : State),
    let a := s.readReg rs1
    let b := s.readReg rs2
    WritesRegister (.slti rd rs1 imm) s rd (· = if a.toInt < imm.toInt then 1#32 else 0#32) ∧
    WritesRegister (.sltiu rd rs1 imm) s rd (· = if a.toNat < imm.toNat then 1#32 else 0#32) ∧
    WritesRegister (.slt rd rs1 rs2) s rd (· = if a.toInt < b.toInt then 1#32 else 0#32) ∧
    WritesRegister (.sltu rd rs1 rs2) s rd (· = if a.toNat < b.toNat then 1#32 else 0#32)

/-! ### Registers, memory and the port, over all instructions -/

/-- Register 0 reads as zero in every state and a write of it changes nothing, so that writing it and reading it
gives zero (10_state section 2; 95_test_vectors section 1.2 T3). -/
def Obligations.RegisterZeroIsImmutable : Prop :=
  ∀ (s : State) (v : Word), s.readReg 0#5 = 0#32 ∧ s.writeReg 0#5 v = s ∧ (s.writeReg 0#5 v).readReg 0#5 = 0#32

/-- The frame of every instruction (95_test_vectors section 6 item 5): no register but the destination changes, and
an instruction that stores has none; no byte of memory changes but the enabled bytes of the word a store addresses,
and those only in the window; the port is silent unless the instruction stores; free values are used by loads alone;
the build's constants never change. -/
def Obligations.EveryInstructionsFrame : Prop :=
  ∀ (i : Instr) (s t : State), exec i s = .next t →
    (∀ r : RegIdx, destination i ≠ some r → t.readReg r = s.readReg r) ∧
    (match storeTarget s i with
      | none => MemKept s t ∧ t.output = s.output
      | some (ea, be) => destination i = none ∧
        ∀ n : Nat, ¬ (wordAlign ea ≠ s.cfg.outAddr ∧ inWindow s.cfg (wordAlign ea) = true ∧
            wordKey s.cfg (wordAlign ea) ≤ n ∧ n < wordKey s.cfg (wordAlign ea) + 4 ∧
            be.getLsbD (n - wordKey s.cfg (wordAlign ea)) = true) →
          Memory.readByte t.mem n = Memory.readByte s.mem n) ∧
    (isLoadInstr i = false → t.draws = s.draws) ∧ t.cfg = s.cfg

/-- The byte an instruction drives on the port, by the five-row table of 20_memory R43. -/
def portByte (s : State) : Instr → Option Byte
  | .sb rs1 rs2 imm =>
    if s.readReg rs1 + imm = s.cfg.outAddr then some ((s.readReg rs2).extractLsb' 0 8) else none
  | .sh rs1 rs2 imm =>
    if s.readReg rs1 + imm = s.cfg.outAddr ∨ s.readReg rs1 + imm = s.cfg.outAddr + 1#32 then
      some ((s.readReg rs2).extractLsb' 0 8)
    else none
  | .sw rs1 rs2 imm =>
    if s.readReg rs1 + imm = s.cfg.outAddr ∨ s.readReg rs1 + imm = s.cfg.outAddr + 1#32 ∨
        s.readReg rs1 + imm = s.cfg.outAddr + 2#32 ∨ s.readReg rs1 + imm = s.cfg.outAddr + 3#32 then
      some ((s.readReg rs2).extractLsb' 0 8)
    else none
  | _ => none

/-- The output port (20_memory R43): the stream grows by exactly the byte the table gives, for every instruction and
in every cycle (an Invalid word drives none), and an instruction whose aligned store address is the sentinel stores
nothing. The five-row table and the sentence about its rows are the spec's own inference, marked in R43 as derived from
R35 and R47; the stream is the model's record of the port, no state of the spec (log 6). -/
def Obligations.OutputPortFollowsItsTable : Prop :=
  (∀ (i : Instr) (s t : State), legalBuild s.cfg = true → exec i s = .next t →
    t.output = s.output ++ (portByte s i).toList ∧
    (∀ (ea : Word) (be : ByteEnable), storeTarget s i = some (ea, be) → wordAlign ea = s.cfg.outAddr →
      MemKept s t)) ∧
  ∀ s t : State, step s = .next t →
    t.output = s.output ++ match decode s.fetchWord with
      | .ok i => (portByte s i).toList
      | .error _ => []

/-- `WriteWord` (20_memory R39): the sentinel first, then the window under the enables, else nothing; with no enable
nothing changes. -/
def Obligations.WordWriteUnderEnables : Prop :=
  ∀ (s : State) (a : Word) (be : ByteEnable) (d : Word), legalBuild s.cfg = true → a.toNat % 4 = 0 →
    (s.writeWord a be d).pc = s.pc ∧ RegsKept s (s.writeWord a be d) ∧
    (a = s.cfg.outAddr →
      MemKept s (s.writeWord a be d) ∧
      (s.writeWord a be d).output = s.output ++ if be.getLsbD 0 then [d.extractLsb' 0 8] else []) ∧
    (a ≠ s.cfg.outAddr → inWindow s.cfg a = true →
      (s.writeWord a be d).output = s.output ∧
      ∀ n : Nat, Memory.readByte (s.writeWord a be d).mem n =
        if a.toNat ≤ n ∧ n < a.toNat + 4 ∧ be.getLsbD (n - a.toNat) = true then d.extractLsb' (8 * (n - a.toNat)) 8
        else Memory.readByte s.mem n) ∧
    (a ≠ s.cfg.outAddr → inWindow s.cfg a = false → s.writeWord a be d = s) ∧
    (be = 0b0000#4 → MemKept s (s.writeWord a be d) ∧ (s.writeWord a be d).output = s.output)

/-- Little-endian lanes (20_memory R41; lanes 1 to 3 are the spec's decision D11, log 11): in the window, the byte load
at `a + i` of an aligned `a` obtains bits `8i+7 : 8i` of the word at `a`, the half load at `a + 2h` its half lane `h`,
which is bytes `2h` and `2h + 1`, and byte-enable bit `i` of a write is the enable of lane `i`. -/
def Obligations.LanesAreLittleEndian : Prop :=
  ∀ (s : State) (a : Word), legalBuild s.cfg = true → inWindow s.cfg a = true → a.toNat % 4 = 0 →
    (∀ i : Nat, i < 4 →
      s.memRead1 (a + BitVec.ofNat 32 i) = (s.readWord a).extractLsb' (8 * i) 8 ∧
      s.memRead1 (a + BitVec.ofNat 32 i) = Memory.readByte s.mem (a.toNat + i)) ∧
    (∀ h : Nat, h < 2 →
      s.memRead2 (a + BitVec.ofNat 32 (2 * h)) = (s.readWord a).extractLsb' (16 * h) 16 ∧
      s.memRead2 (a + BitVec.ofNat 32 (2 * h)) =
        Memory.readByte s.mem (a.toNat + 2 * h + 1) ++ Memory.readByte s.mem (a.toNat + 2 * h)) ∧
    (∀ (be : ByteEnable) (d : Word) (i : Nat), i < 4 →
      Memory.readByte (s.writeWord a be d).mem (a.toNat + i) =
        if be.getLsbD i = true then d.extractLsb' (8 * i) 8 else Memory.readByte s.mem (a.toNat + i))

/-- Alignment (derived by the spec in 20_memory R48; the fetch is its decision D18, log 12): the address bits a width
cannot use are ignored, for loads, stores and the fetch; no access straddles a word. -/
def Obligations.MisalignedAccessesRoundDown : Prop :=
  ∀ (s : State) (ea v : Word), legalBuild s.cfg = true →
    s.memRead2 ea = s.memRead2 (ea &&& 0xFFFFFFFE#32) ∧
    s.memWrite2 ea v = s.memWrite2 (ea &&& 0xFFFFFFFE#32) v ∧
    s.memRead4 ea = s.memRead4 (ea &&& 0xFFFFFFFC#32) ∧
    s.memWrite4 ea v = s.memWrite4 (ea &&& 0xFFFFFFFC#32) v ∧
    (s.setPc ea).fetchWord = (s.setPc (ea &&& 0xFFFFFFFC#32)).fetchWord

/-- Store, then load at the same place (95_test_vectors section 6 item 8): the store and the load, with any base,
displacement and alignment in the window, both complete, and the loaded register holds the stored word, byte or
half. -/
def Obligations.StoreThenLoadRoundTrip : Prop :=
  ∀ (rd rs1 rs2 : RegIdx) (imm : Word) (s : State),
    legalBuild s.cfg = true → inWindow s.cfg (s.readReg rs1 + imm) = true → rd ≠ 0#5 →
    (∃ t u : State, exec (.sw rs1 rs2 imm) s = .next t ∧ exec (.lw rd rs1 imm) t = .next u ∧
      u.readReg rd = s.readReg rs2) ∧
    (∃ t u : State, exec (.sh rs1 rs2 imm) s = .next t ∧ exec (.lhu rd rs1 imm) t = .next u ∧
      u.readReg rd = ((s.readReg rs2).extractLsb' 0 16).zeroExtend 32) ∧
    (∃ t u : State, exec (.sb rs1 rs2 imm) s = .next t ∧ exec (.lbu rd rs1 imm) t = .next u ∧
      u.readReg rd = ((s.readReg rs2).extractLsb' 0 8).zeroExtend 32)

/-- Instruction-fetch coherence (derived by the spec in 20_memory R57): a word stored over the next instruction is what
the very next cycle executes. -/
def Obligations.StoreIsSeenByTheNextFetch : Prop :=
  ∀ (rs1 rs2 : RegIdx) (imm : Word) (s : State),
    legalBuild s.cfg = true → inWindow s.cfg (s.pc + 4#32) = true →
    wordAlign (s.readReg rs1 + imm) = wordAlign (s.pc + 4#32) →
    ∃ t : State, exec (.sw rs1 rs2 imm) s = .next t ∧ step t = runWord (s.readReg rs2) t

/-- The memory's form is canonical: two memories in it that read alike at every address are one list (log 14). -/
def Obligations.CanonicalMemoriesAreDetermined : Prop :=
  ∀ m m' : Memory, Memory.wf m = true → Memory.wf m' = true →
    (∀ n : Nat, Memory.readByte m n = Memory.readByte m' n) → m = m'

/-! ### The step -/

/-- An out-of-window read is the next free value, on the data channel and on the fetch channel, uses it up, and is no
fault; an out-of-window fetch executes it, whatever it is (20_memory R38; the counting of draws is log 4, log 5). -/
def Obligations.OutOfWindowReadsAreFree : Prop :=
  (∀ (s : State) (a : Word), inWindow s.cfg a = false →
    s.readWord a = Config.any32 s.draws ∧ s.afterRead a = { s with draws := s.draws + 1 }) ∧
  ∀ s : State, legalBuild s.cfg = true → inWindow s.cfg s.pc = false →
    step s = runWord (Config.any32 s.draws) { s with draws := s.draws + 1 }

/-- A step runs the decoded instruction (40_execute_common R100, R101): in a legal build it is `exec` of what the
fetched word decodes to, on the state as it is when `pc` is in the window, and then the fetched word is the four bytes
of the word that holds `pc`. -/
def Obligations.StepRunsTheDecodedInstruction : Prop :=
  ∀ s : State, legalBuild s.cfg = true →
    (∀ i : Instr, decode s.fetchWord = .ok i → step s = exec i s.afterFetch) ∧
    (∀ r : Reject, decode s.fetchWord = .error r → step s = .next s.afterFetch) ∧
    (inWindow s.cfg s.pc = true →
      s.afterFetch = s ∧ s.fetchWord = Memory.readWord s.mem (s.pc.toNat / 4 * 4))

/-- A build outside the constraints of 00_scope R5 is refused under its own name, and nothing else is refused (log 8;
93_implementation_defined U10). -/
def Obligations.OnlyIllegalBuildsAreRefused : Prop :=
  ∀ s : State, (legalBuild s.cfg = false ↔ step s = .refused .illegalBuild)

/-- "The model always produces a next state" (00_scope section 5, 60_exceptions section 1): every instruction answers
a next state in every state, and so does every step of a legal build. -/
def Obligations.EveryLegalStepAnswers : Prop :=
  (∀ (i : Instr) (s : State), ∃ t : State, exec i s = .next t) ∧
  ∀ s : State, legalBuild s.cfg = true → ∃ t : State, step s = .next t ∧ legalBuild t.cfg = true

/-- Invalid changes nothing (48_invalid_and_system R210), and the stall is a fixed point (R211): from a halted state,
any number of cycles later the state is the same. With `pc` outside the window each cycle executes a free word: this
clause is the end of R211, which the spec marks as derived from R210 and 20_memory R36, and how the model numbers the
free words is its choice (log 4, log 5). The words that match no row include those with bit 30 set and no variant, the
spec's decision D8 and the model's choice (log 7). -/
def Obligations.InvalidStallIsAFixedPoint : Prop :=
  (∀ (w : Word) (s : State), (∀ r ∈ opcodeTable, r.matchesWord w = false) → runWord w s = .next s) ∧
  ∀ s : State, legalBuild s.cfg = true →
    (s.halted = true → step s = .next s ∧ ∀ k : Nat, Sys2Proof.core.run k s = .next s) ∧
    (inWindow s.cfg s.pc = false → step s = runWord (Config.any32 s.draws) { s with draws := s.draws + 1 })

/-- Every step keeps the invariant: the build stays legal, memory stays in canonical form, and nothing outside the
window is ever stored. -/
def Obligations.StepKeepsTheInvariant : Prop :=
  ∀ s t : State, s.Inv → step s = .next t → t.Inv

/-- The reset state meets the invariant. -/
def Obligations.ResetMeetsTheInvariant : Prop := State.reset.Inv

/-- The initial state of every build, image and register content meets the invariant. -/
def Obligations.InitialStatesMeetTheInvariant : Prop :=
  ∀ (c : Config) (image : List Word) (regInit : Vector Word 31), imageFits c image = true →
    (initialState c image regInit).Inv

/-- The initial state (10_state R23, R25), for every choice of the open parameters: `pc`, register 0, the other
registers, the words of the image, and a silent port. -/
def Obligations.InitialStateOfABuild : Prop :=
  ∀ (c : Config) (image : List Word) (regInit : Vector Word 31), imageFits c image = true →
    (initialState c image regInit).pc = c.resetPc ∧
    (initialState c image regInit).readReg 0#5 = 0#32 ∧
    (∀ i : Nat, (h : i < 31) → (initialState c image regInit).readReg (BitVec.ofNat 5 (i + 1)) = regInit[i]) ∧
    (∀ k : Nat, (h : k < image.length) →
      (initialState c image regInit).readWord (c.memBase + BitVec.ofNat 32 (4 * k)) = image[k]) ∧
    (initialState c image regInit).output = []

/-- The reset state is one of the initial states: the one of the example configuration T0, the image of 256 zero words
and registers at zero. The three are the model's choices (log 1, log 2, log 3). -/
def Obligations.ResetIsAnInitialState : Prop :=
  imageFits resetConfig (List.replicate 256 0#32) = true ∧
    State.reset = initialState resetConfig (List.replicate 256 0#32) (Vector.replicate 31 0#32)

/-- Over a whole step: the build's constants stay, the port emits at most one byte (20_memory R43: "at most one byte
per cycle") and never takes one back, and at most the fetch and one data read use a free value. -/
def Obligations.StepEmitsAtMostOneByte : Prop :=
  ∀ s t : State, step s = .next t →
    t.cfg = s.cfg ∧ (t.output = s.output ∨ ∃ b : Byte, t.output = s.output ++ [b]) ∧
    s.draws ≤ t.draws ∧ t.draws ≤ s.draws + 2

/-- Bit 0 of `pc` is never set by a step, so it can be 1 only if bit 0 of `RESET_PC` is (10_state section 3, on the
alignment of `pc`). -/
def Obligations.OddPcOnlyFromOddResetPc : Prop :=
  (∀ s t : State, step s = .next t → t.pc.getLsbD 0 = true → s.pc.getLsbD 0 = true) ∧
  ∀ (c : Config) (image : List Word) (regInit : Vector Word 31) (k : Nat) (t : State),
    Sys2Proof.core.run k (initialState c image regInit) = .next t → t.pc.getLsbD 0 = true →
      c.resetPc.getLsbD 0 = true

/-- Free values do not reach a disciplined step (70_reset_and_hazards R253(c)): it uses none, and from states that
differ only in which free value is next it gives states that differ only in that. -/
def Obligations.FreeValuesDoNotReachDisciplinedSteps : Prop :=
  ∀ (s t : State) (n : Nat), s.disciplined = true → step s = .next t →
    t.draws = s.draws ∧ step { s with draws := n } = .next { t with draws := n }

/-- The datapath and the step are one machine (40_execute_common section 2, 10_state section 6): in a legal build, the
cycle computed from the decoded record, the datapath's signals and the one commit at the clock boundary is the step. -/
def Obligations.DatapathAgreesWithStep : Prop :=
  ∀ s : State, legalBuild s.cfg = true → step s = .next s.cycle

/-- A placed word is run next (log 9): after `withFetchWord`, from any state at all, the next step executes exactly
that word. -/
def Obligations.PlacedWordIsRunNext : Prop :=
  ∀ (s : State) (w : Nat), w < 2 ^ 32 →
    step (s.withFetchWord 32 w) = runWord (BitVec.ofNat 32 w) (s.withFetchWord 32 w)
end

