-- ==== Sys2Proof/Laws/Decode.lean ====
section
/-! SUPPORT. The columns of a word (spec/30_encoding.md R67): the fields of a packed word are its columns, a word is
the packing of its fields, and the three masks of R74 test the columns. -/

namespace Sys2Proof

/-- A packed word as a number. -/
theorem packWord_toNat (a : BitVec 7) (b c : BitVec 5) (d : BitVec 3) (e : BitVec 5) (f : BitVec 7) :
    (packWord a b c d e f).toNat =
      a.toNat * 33554432 + b.toNat * 1048576 + c.toNat * 32768 + d.toNat * 4096 + e.toNat * 128 + f.toNat := by
  have := a.isLt; have := b.isLt; have := c.isLt; have := d.isLt; have := e.isLt; have := f.isLt
  simp only [packWord, BitVec.toNat_append]
  rw [← Nat.shiftLeft_add_eq_or_of_lt (by omega), ← Nat.shiftLeft_add_eq_or_of_lt (by omega),
    ← Nat.shiftLeft_add_eq_or_of_lt (by omega), ← Nat.shiftLeft_add_eq_or_of_lt (by omega),
    ← Nat.shiftLeft_add_eq_or_of_lt (by omega)]
  simp only [Nat.shiftLeft_eq]
  omega

section Fields

variable (a : BitVec 7) (b c : BitVec 5) (d : BitVec 3) (e : BitVec 5) (f : BitVec 7)

@[simp] theorem funct7_packWord : funct7 (packWord a b c d e f) = a := by
  have := a.isLt; have := b.isLt; have := c.isLt; have := d.isLt; have := e.isLt; have := f.isLt
  apply BitVec.eq_of_toNat_eq
  simp only [funct7, BitVec.extractLsb'_toNat, packWord_toNat, Nat.shiftRight_eq_div_pow]
  omega

@[simp] theorem rs2Field_packWord : rs2Field (packWord a b c d e f) = b := by
  have := a.isLt; have := b.isLt; have := c.isLt; have := d.isLt; have := e.isLt; have := f.isLt
  apply BitVec.eq_of_toNat_eq
  simp only [rs2Field, BitVec.extractLsb'_toNat, packWord_toNat, Nat.shiftRight_eq_div_pow]
  omega

@[simp] theorem rs1Field_packWord : rs1Field (packWord a b c d e f) = c := by
  have := a.isLt; have := b.isLt; have := c.isLt; have := d.isLt; have := e.isLt; have := f.isLt
  apply BitVec.eq_of_toNat_eq
  simp only [rs1Field, BitVec.extractLsb'_toNat, packWord_toNat, Nat.shiftRight_eq_div_pow]
  omega

@[simp] theorem funct3_packWord : funct3 (packWord a b c d e f) = d := by
  have := a.isLt; have := b.isLt; have := c.isLt; have := d.isLt; have := e.isLt; have := f.isLt
  apply BitVec.eq_of_toNat_eq
  simp only [funct3, BitVec.extractLsb'_toNat, packWord_toNat, Nat.shiftRight_eq_div_pow]
  omega

@[simp] theorem rdField_packWord : rdField (packWord a b c d e f) = e := by
  have := a.isLt; have := b.isLt; have := c.isLt; have := d.isLt; have := e.isLt; have := f.isLt
  apply BitVec.eq_of_toNat_eq
  simp only [rdField, BitVec.extractLsb'_toNat, packWord_toNat, Nat.shiftRight_eq_div_pow]
  omega

@[simp] theorem opcode_packWord : opcode (packWord a b c d e f) = f := by
  have := a.isLt; have := b.isLt; have := c.isLt; have := d.isLt; have := e.isLt; have := f.isLt
  apply BitVec.eq_of_toNat_eq
  simp only [opcode, BitVec.extractLsb'_toNat, packWord_toNat, Nat.shiftRight_eq_div_pow]
  omega

end Fields

/-- A word is the packing of its six fields (R67). -/
theorem packWord_fields (iw : Word) :
    packWord (funct7 iw) (rs2Field iw) (rs1Field iw) (funct3 iw) (rdField iw) (opcode iw) = iw := by
  have := iw.isLt
  apply BitVec.eq_of_toNat_eq
  simp only [packWord_toNat, funct7, rs2Field, rs1Field, funct3, rdField, opcode, BitVec.extractLsb'_toNat,
    Nat.shiftRight_eq_div_pow]
  omega

/-! ### The immediates by columns (R62 to R67) -/

/-- A field of a field. -/
theorem extract_extract (x : Word) (s n t m : Nat) (h : t + m ≤ n) :
    (x.extractLsb' s n).extractLsb' t m = x.extractLsb' (s + t) m := by
  apply BitVec.eq_of_getLsbD_eq
  intro i hi
  simp [hi, show t + i < n by omega, Nat.add_assoc]

/-- Two neighbouring fields are one. -/
theorem extract_append (x : Word) (s n m : Nat) :
    (x.extractLsb' (s + n) m ++ x.extractLsb' s n) = x.extractLsb' s (m + n) := by
  apply BitVec.eq_of_getLsbD_eq
  intro i hi
  simp only [BitVec.getLsbD_append, BitVec.getLsbD_extractLsb', hi]
  by_cases h : i < n
  · simp [h]
  · simp [h, show i - n < m by omega, show s + n + (i - n) = s + i by omega]

theorem immI_columns (iw : Word) : immI iw = (funct7 iw ++ rs2Field iw : BitVec 12).signExtend 32 := by
  unfold immI funct7 rs2Field
  rw [show (iw.extractLsb' 25 7 ++ iw.extractLsb' 20 5 : BitVec 12) = iw.extractLsb' 20 12 from
    extract_append iw 20 5 7]

theorem immS_columns (iw : Word) : immS iw = (funct7 iw ++ rdField iw : BitVec 12).signExtend 32 := rfl

theorem immB_columns (iw : Word) : immB iw =
    ((funct7 iw).extractLsb' 6 1 ++ (rdField iw).extractLsb' 0 1 ++ (funct7 iw).extractLsb' 0 6 ++
      (rdField iw).extractLsb' 1 4 ++ 0#1 : BitVec 13).signExtend 32 := by
  unfold immB funct7 rdField
  simp only [extract_extract _ _ _ _ _ (show 6 + 1 ≤ 7 by omega), extract_extract _ _ _ _ _ (show 0 + 1 ≤ 5 by omega),
    extract_extract _ _ _ _ _ (show 0 + 6 ≤ 7 by omega), extract_extract _ _ _ _ _ (show 1 + 4 ≤ 5 by omega)]

theorem immU_columns (iw : Word) : immU iw = funct7 iw ++ rs2Field iw ++ rs1Field iw ++ funct3 iw ++ 0#12 := by
  unfold immU funct7 rs2Field rs1Field funct3
  rw [show (iw.extractLsb' 25 7 ++ iw.extractLsb' 20 5 : BitVec 12) = iw.extractLsb' 20 12 from
    extract_append iw 20 5 7,
    show (iw.extractLsb' 20 12 ++ iw.extractLsb' 15 5 : BitVec 17) = iw.extractLsb' 15 17 from
    extract_append iw 15 5 12,
    show (iw.extractLsb' 15 17 ++ iw.extractLsb' 12 3 : BitVec 20) = iw.extractLsb' 12 20 from
    extract_append iw 12 3 17]

theorem immJ_columns (iw : Word) : immJ iw =
    ((funct7 iw).extractLsb' 6 1 ++ (rs1Field iw ++ funct3 iw) ++ (rs2Field iw).extractLsb' 0 1 ++
      ((funct7 iw).extractLsb' 0 6 ++ (rs2Field iw).extractLsb' 1 4) ++ 0#1 : BitVec 21).signExtend 32 := by
  unfold immJ funct7 rs2Field rs1Field funct3
  simp only [extract_extract _ _ _ _ _ (show 6 + 1 ≤ 7 by omega), extract_extract _ _ _ _ _ (show 0 + 1 ≤ 5 by omega),
    extract_extract _ _ _ _ _ (show 0 + 6 ≤ 7 by omega), extract_extract _ _ _ _ _ (show 1 + 4 ≤ 5 by omega)]
  rw [show (iw.extractLsb' 15 5 ++ iw.extractLsb' 12 3 : BitVec 8) = iw.extractLsb' 12 8 from
    extract_append iw 12 3 5,
    show (iw.extractLsb' (25 + 0) 6 ++ iw.extractLsb' (20 + 1) 4 : BitVec 10) = iw.extractLsb' 21 10 from
    extract_append iw 21 4 6]

/-! ### The masks of R74 -/

/-- Bit `i` of each mask of R74. -/
theorem mask_opcode_bits : ∀ i : Fin 32, (0x0000007F#32).getLsbD i.val = decide (i.val < 7) := by decide

theorem mask_funct3_bits : ∀ i : Fin 32, (0x0000707F#32).getLsbD i.val =
    decide (i.val < 7 ∨ 12 ≤ i.val ∧ i.val < 15) := by decide

theorem mask_funct7_bits : ∀ i : Fin 32, (0xFE00707F#32).getLsbD i.val =
    decide (i.val < 7 ∨ 12 ≤ i.val ∧ i.val < 15 ∨ 25 ≤ i.val) := by decide

/-- Mask `0x0000007F` keeps the opcode. -/
theorem and_mask_opcode (iw : Word) : iw &&& 0x0000007F#32 = packWord 0 0 0 0 0 (opcode iw) := by
  apply BitVec.eq_of_getLsbD_eq
  intro i hi
  have hm := mask_opcode_bits ⟨i, hi⟩
  simp only at hm
  rw [BitVec.getLsbD_and, hm]
  unfold packWord opcode
  change _ = BitVec.getLsbD (w := 7 + 5 + 5 + 3 + 5 + 7) _ i
  simp only [BitVec.getLsbD_append, BitVec.getLsbD_extractLsb']
  by_cases h : i < 7
  · simp [h]
  · simp [h]

/-- Mask `0x0000707F` keeps the opcode and funct3. -/
theorem and_mask_funct3 (iw : Word) : iw &&& 0x0000707F#32 = packWord 0 0 0 (funct3 iw) 0 (opcode iw) := by
  apply BitVec.eq_of_getLsbD_eq
  intro i hi
  have hm := mask_funct3_bits ⟨i, hi⟩
  simp only at hm
  rw [BitVec.getLsbD_and, hm]
  unfold packWord opcode funct3
  change _ = BitVec.getLsbD (w := 7 + 5 + 5 + 3 + 5 + 7) _ i
  simp only [BitVec.getLsbD_append, BitVec.getLsbD_extractLsb']
  interval_cases i <;> simp

/-- Mask `0xFE00707F` keeps the opcode, funct3 and funct7. -/
theorem and_mask_funct7 (iw : Word) :
    iw &&& 0xFE00707F#32 = packWord (funct7 iw) 0 0 (funct3 iw) 0 (opcode iw) := by
  apply BitVec.eq_of_getLsbD_eq
  intro i hi
  have hm := mask_funct7_bits ⟨i, hi⟩
  simp only at hm
  rw [BitVec.getLsbD_and, hm]
  unfold packWord opcode funct3 funct7
  change _ = BitVec.getLsbD (w := 7 + 5 + 5 + 3 + 5 + 7) _ i
  simp only [BitVec.getLsbD_append, BitVec.getLsbD_extractLsb']
  interval_cases i <;> simp

/-- Two packed words are equal iff their columns are. -/
theorem packWord_inj {a a' : BitVec 7} {b b' c c' : BitVec 5} {d d' : BitVec 3} {e e' : BitVec 5} {f f' : BitVec 7} :
    packWord a b c d e f = packWord a' b' c' d' e' f' ↔ a = a' ∧ b = b' ∧ c = c' ∧ d = d' ∧ e = e' ∧ f = f' := by
  constructor
  · intro h
    exact ⟨by simpa using congrArg funct7 h, by simpa using congrArg rs2Field h, by simpa using congrArg rs1Field h,
      by simpa using congrArg funct3 h, by simpa using congrArg rdField h, by simpa using congrArg opcode h⟩
  · rintro ⟨rfl, rfl, rfl, rfl, rfl, rfl⟩; rfl

/-- A row with mask `0x0000007F` applies iff the opcode is its own. -/
theorem matches_opcode (iw : Word) (op : BitVec 7) :
    iw &&& 0x0000007F#32 = packWord 0 0 0 0 0 op ↔ opcode iw = op := by
  rw [and_mask_opcode, packWord_inj]; simp

/-- A row with mask `0x0000707F` applies iff the opcode and funct3 are its own. -/
theorem matches_funct3 (iw : Word) (f3 : BitVec 3) (op : BitVec 7) :
    iw &&& 0x0000707F#32 = packWord 0 0 0 f3 0 op ↔ funct3 iw = f3 ∧ opcode iw = op := by
  rw [and_mask_funct3, packWord_inj]; simp

/-- A row with mask `0xFE00707F` applies iff the opcode, funct3 and funct7 are its own. -/
theorem matches_funct7 (iw : Word) (f7 : BitVec 7) (f3 : BitVec 3) (op : BitVec 7) :
    iw &&& 0xFE00707F#32 = packWord f7 0 0 f3 0 op ↔ funct7 iw = f7 ∧ funct3 iw = f3 ∧ opcode iw = op := by
  rw [and_mask_funct7, packWord_inj]; simp

/-- What a word that matches a row with mask `0x0000007F` has in common with the row's pattern. -/
theorem columns_of_match_opcode {iw p : Word} (h : iw &&& 0x0000007F#32 = p) : opcode iw = opcode p := by
  rw [← h, and_mask_opcode]; simp

/-- What a word that matches a row with mask `0x0000707F` has in common with the row's pattern. -/
theorem columns_of_match_funct3 {iw p : Word} (h : iw &&& 0x0000707F#32 = p) :
    funct3 iw = funct3 p ∧ opcode iw = opcode p := by
  rw [← h, and_mask_funct3]; simp

/-- What a word that matches a row with mask `0xFE00707F` has in common with the row's pattern. -/
theorem columns_of_match_funct7 {iw p : Word} (h : iw &&& 0xFE00707F#32 = p) :
    funct7 iw = funct7 p ∧ funct3 iw = funct3 p ∧ opcode iw = opcode p := by
  rw [← h, and_mask_funct7]; simp

/-! ### Concatenations -/

/-- A concatenation as a number. -/
theorem toNat_append_eq {m n : Nat} (x : BitVec m) (y : BitVec n) :
    (x ++ y).toNat = x.toNat * 2 ^ n + y.toNat := by
  rw [BitVec.toNat_append, ← Nat.shiftLeft_add_eq_or_of_lt y.isLt, Nat.shiftLeft_eq]

theorem extract_append_high {m n : Nat} (x : BitVec m) (y : BitVec n) : (x ++ y).extractLsb' n m = x := by
  apply BitVec.eq_of_getLsbD_eq
  intro i hi
  simp [BitVec.getLsbD_append, hi]

theorem extract_append_low {m n : Nat} (x : BitVec m) (y : BitVec n) : (x ++ y).extractLsb' 0 n = y := by
  apply BitVec.eq_of_getLsbD_eq
  intro i hi
  simp [BitVec.getLsbD_append, hi]

/-- A value that fits in `n` signed bits is the sign extension of its low `n` bits. -/
theorem signExtend_setWidth {v : Word} {n : Nat} (hn : n ≤ 32) (h : v.toInt = Int.bmod v.toNat (2 ^ n)) :
    (v.setWidth n).signExtend 32 = v := by
  apply BitVec.eq_of_toInt_eq
  rw [BitVec.toInt_signExtend_of_le hn, BitVec.toInt_setWidth, ← h]

end Sys2Proof
end

