-- ==== Sys2Proof/Laws/Memory.lean ====
section
/-! SUPPORT. The laws of memory: what a byte read sees after each write, and that every write keeps the canonical
form. -/

namespace Sys2Proof.Machine

/-! ### Reading after writing -/

theorem readByte_erase (m : Memory) (a b : Nat) :
    Memory.readByte (Memory.erase m a) b = if b = a then 0x00#8 else Memory.readByte m b := by
  induction m with
  | nil => simp [Memory.erase, Memory.readByte]
  | cons c rest ih =>
    obtain ⟨k, x⟩ := c
    by_cases hk : k = a
    · subst hk
      by_cases hb : b = k
      · subst hb; simpa [Memory.erase] using ih
      · simp [Memory.erase, Memory.readByte, ih, hb, Ne.symm hb]
    · by_cases hkb : k = b
      · subst hkb; simp [Memory.erase, Memory.readByte, hk]
      · simp [Memory.erase, Memory.readByte, hk, hkb, ih]

theorem readByte_insert_erase (m : Memory) (a b : Nat) (v : Byte) :
    Memory.readByte (Memory.insert (Memory.erase m a) a v) b = if b = a then v else Memory.readByte m b := by
  induction m with
  | nil => simp [Memory.erase, Memory.insert, Memory.readByte, eq_comm]
  | cons c rest ih =>
    obtain ⟨k, x⟩ := c
    by_cases hk : k = a
    · subst hk
      by_cases hb : b = k
      · subst hb; simpa [Memory.erase] using ih
      · simp [Memory.erase, Memory.readByte, ih, hb, Ne.symm hb]
    · by_cases hlt : a < k
      · simp only [Memory.erase, if_neg hk, Memory.insert, if_pos hlt, Memory.readByte, readByte_erase]
        by_cases hb : b = a
        · simp [hb]
        · simp [hb, Ne.symm hb]
      · simp only [Memory.erase, if_neg hk, Memory.insert, if_neg hlt, Memory.readByte, ih]
        by_cases hkb : k = b
        · subst hkb; simp [hk]
        · simp [hkb]

/-- A byte read after a byte write. -/
theorem readByte_writeByte (m : Memory) (a b : Nat) (v : Byte) :
    Memory.readByte (Memory.writeByte m a v) b = if b = a then v else Memory.readByte m b := by
  unfold Memory.writeByte
  split
  · rename_i h; simp [readByte_erase, h]
  · exact readByte_insert_erase m a b v

theorem readByte_writeLane (m : Memory) (k : Nat) (be : ByteEnable) (d : Word) (i n : Nat) :
    Memory.readByte (Memory.writeLane m k be d i) n =
      if n = k + i ∧ be.getLsbD i = true then lane d i else Memory.readByte m n := by
  unfold Memory.writeLane
  split <;> simp_all [readByte_writeByte]

/-- A byte read after a word written under its enables: the enabled lanes are new, every other byte is old. -/
theorem readByte_writeLanes (m : Memory) (k : Nat) (be : ByteEnable) (d : Word) (n : Nat) :
    Memory.readByte (Memory.writeLanes m k be d) n =
      if k ≤ n ∧ n < k + 4 ∧ be.getLsbD (n - k) = true then lane d (n - k) else Memory.readByte m n := by
  simp only [Memory.writeLanes, readByte_writeLane]
  by_cases h : k ≤ n ∧ n < k + 4
  · obtain ⟨i, rfl⟩ : ∃ i, n = k + i := ⟨n - k, by omega⟩
    have hi : i < 4 := by omega
    interval_cases i <;> simp
  · have h0 : ∀ i, i < 4 → n ≠ k + i := fun i hi e => h ⟨by omega, by omega⟩
    have := h0 0; have := h0 1; have := h0 2; have := h0 3
    have hn : ¬ (k ≤ n ∧ n < k + 4 ∧ be.getLsbD (n - k) = true) := fun e => h ⟨e.1, e.2.1⟩
    simp_all

/-! ### The canonical form -/

theorem wfFrom_mono {m : Memory} {low high : Nat} (h : low ≤ high) (hm : Memory.wfFrom high m = true) :
    Memory.wfFrom low m = true := by
  cases m with
  | nil => rfl
  | cons c rest => simp only [Memory.wfFrom, Bool.and_eq_true, decide_eq_true_eq] at hm ⊢; exact ⟨⟨by omega, hm.1.2⟩, hm.2⟩

theorem wfFrom_erase {m : Memory} {low : Nat} (a : Nat) (hm : Memory.wfFrom low m = true) :
    Memory.wfFrom low (Memory.erase m a) = true := by
  induction m generalizing low with
  | nil => rfl
  | cons c rest ih =>
    obtain ⟨k, x⟩ := c
    simp only [Memory.wfFrom, Bool.and_eq_true, decide_eq_true_eq] at hm
    by_cases hk : k = a
    · simp only [Memory.erase, if_pos hk]; exact wfFrom_mono (by omega) (ih hm.2)
    · simp only [Memory.erase, if_neg hk, Memory.wfFrom, Bool.and_eq_true, decide_eq_true_eq]
      exact ⟨hm.1, ih hm.2⟩

theorem wfFrom_insert_erase {m : Memory} {low a : Nat} {v : Byte} (hv : v ≠ 0x00#8) (ha : low ≤ a)
    (hm : Memory.wfFrom low m = true) :
    Memory.wfFrom low (Memory.insert (Memory.erase m a) a v) = true := by
  induction m generalizing low with
  | nil => simp [Memory.erase, Memory.insert, Memory.wfFrom, ha, hv]
  | cons c rest ih =>
    obtain ⟨k, x⟩ := c
    simp only [Memory.wfFrom, Bool.and_eq_true, decide_eq_true_eq] at hm
    by_cases hk : k = a
    · simp only [Memory.erase, if_pos hk]; exact ih ha (wfFrom_mono (by omega) hm.2)
    · by_cases hlt : a < k
      · simp only [Memory.erase, if_neg hk, Memory.insert, if_pos hlt, Memory.wfFrom, Bool.and_eq_true,
          decide_eq_true_eq, bne_iff_ne, ne_eq]
        exact ⟨⟨ha, hv⟩, ⟨by omega, by simpa using hm.1.2⟩, wfFrom_erase a hm.2⟩
      · simp only [Memory.erase, if_neg hk, Memory.insert, if_neg hlt, Memory.wfFrom, Bool.and_eq_true,
          decide_eq_true_eq]
        exact ⟨hm.1, ih (by omega) hm.2⟩

/-- A byte write keeps the canonical form. -/
theorem wf_writeByte {m : Memory} (a : Nat) (v : Byte) (hm : Memory.wf m = true) :
    Memory.wf (Memory.writeByte m a v) = true := by
  unfold Memory.writeByte
  split
  · exact wfFrom_erase a hm
  · rename_i h; exact wfFrom_insert_erase h (Nat.zero_le a) hm

theorem wf_writeLane {m : Memory} (k : Nat) (be : ByteEnable) (d : Word) (i : Nat) (hm : Memory.wf m = true) :
    Memory.wf (Memory.writeLane m k be d i) = true := by
  unfold Memory.writeLane
  split
  · exact wf_writeByte _ _ hm
  · exact hm

/-- A word write keeps the canonical form. -/
theorem wf_writeLanes {m : Memory} (k : Nat) (be : ByteEnable) (d : Word) (hm : Memory.wf m = true) :
    Memory.wf (Memory.writeLanes m k be d) = true :=
  wf_writeLane k be d 3 (wf_writeLane k be d 2 (wf_writeLane k be d 1 (wf_writeLane k be d 0 hm)))

/-- A channel write keeps the canonical form. -/
theorem wf_writeWord {s : State} (a : Word) (be : ByteEnable) (d : Word) (hm : Memory.wf s.mem = true) :
    Memory.wf (s.writeWord a be d).mem = true := by
  unfold State.writeWord
  repeat' split
  · exact hm
  · exact hm
  · exact wf_writeLanes _ _ _ hm
  · exact hm

/-- Placing an image keeps the canonical form. -/
theorem wf_placeFrom (c : Config) {m : Memory} (k : Nat) (image : List Word) (hm : Memory.wf m = true) :
    Memory.wf (Memory.placeFrom c m k image) = true := by
  induction image generalizing m k with
  | nil => exact hm
  | cons w rest ih => exact ih (k + 1) (wf_writeLanes _ _ _ hm)

theorem reset_mem_wf : Memory.wf State.reset.mem = true := rfl

/-! ### Which addresses are listed -/

theorem mem_erase {m : Memory} {a : Nat} {c : Host.Cell} (h : c ∈ Memory.erase m a) : c ∈ m := by
  induction m with
  | nil => exact h
  | cons d rest ih =>
    obtain ⟨k, x⟩ := d
    by_cases hk : k = a
    · simp only [Memory.erase, if_pos hk] at h; exact List.mem_cons_of_mem _ (ih h)
    · simp only [Memory.erase, if_neg hk, List.mem_cons] at h
      exact h.elim (fun e => by simp [e]) (fun e => List.mem_cons_of_mem _ (ih e))

theorem mem_insert {m : Memory} {a : Nat} {v : Byte} {c : Host.Cell} (h : c ∈ Memory.insert m a v) :
    c = (a, v) ∨ c ∈ m := by
  induction m with
  | nil => simpa [Memory.insert] using h
  | cons d rest ih =>
    obtain ⟨k, x⟩ := d
    by_cases hk : a < k
    · simpa [Memory.insert, hk] using h
    · simp only [Memory.insert, if_neg hk, List.mem_cons] at h
      rcases h with h | h
      · exact .inr (by simp [h])
      · exact (ih h).imp_right (List.mem_cons_of_mem _)

/-- A byte write lists no address but its own. -/
theorem mem_writeByte {m : Memory} {a : Nat} {v : Byte} {c : Host.Cell} (h : c ∈ Memory.writeByte m a v) :
    c.1 = a ∨ c ∈ m := by
  unfold Memory.writeByte at h
  split at h
  · exact .inr (mem_erase h)
  · exact (mem_insert h).imp (by rintro rfl; rfl) mem_erase

theorem mem_writeLane {m : Memory} {k : Nat} {be : ByteEnable} {d : Word} {i : Nat} {c : Host.Cell}
    (h : c ∈ Memory.writeLane m k be d i) : c.1 = k + i ∨ c ∈ m := by
  unfold Memory.writeLane at h
  split at h
  · exact mem_writeByte h
  · exact .inr h

/-- A word write lists no address outside its four bytes. -/
theorem mem_writeLanes {m : Memory} {k : Nat} {be : ByteEnable} {d : Word} {c : Host.Cell}
    (h : c ∈ Memory.writeLanes m k be d) : (k ≤ c.1 ∧ c.1 < k + 4) ∨ c ∈ m := by
  rcases mem_writeLane h with h | h
  · exact .inl (by omega)
  rcases mem_writeLane h with h | h
  · exact .inl (by omega)
  rcases mem_writeLane h with h | h
  · exact .inl (by omega)
  rcases mem_writeLane h with h | h
  · exact .inl (by omega)
  exact .inr h

end Sys2Proof.Machine
end

