-- ==== Sys2Proof/Laws/PerInstr.lean ====
section
/-! SUPPORT. Statements made of every instruction, one lemma per constructor.

Family `EncodesInRow`: an instruction's word is in the row of the opcode map (spec/30_encoding.md R74) that bears its
mnemonic. -/

namespace Sys2Proof.Laws

/-- The mnemonic of an instruction's row (R74, R80). -/
def mnemonic : Instr → String
  | .lui _ _ => "lui"
  | .auipc _ _ => "auipc"
  | .jal _ _ => "jal"
  | .jalr _ _ _ => "jalr"
  | .beq _ _ _ => "beq"
  | .bne _ _ _ => "bne"
  | .blt _ _ _ => "blt"
  | .bge _ _ _ => "bge"
  | .bltu _ _ _ => "bltu"
  | .bgeu _ _ _ => "bgeu"
  | .lb _ _ _ => "lb"
  | .lh _ _ _ => "lh"
  | .lw _ _ _ => "lw"
  | .lbu _ _ _ => "lbu"
  | .lhu _ _ _ => "lhu"
  | .sb _ _ _ => "sb"
  | .sh _ _ _ => "sh"
  | .sw _ _ _ => "sw"
  | .addi _ _ _ => "addi"
  | .slti _ _ _ => "slti"
  | .sltiu _ _ _ => "sltiu"
  | .xori _ _ _ => "xori"
  | .ori _ _ _ => "ori"
  | .andi _ _ _ => "andi"
  | .slli _ _ _ => "slli"
  | .srli _ _ _ => "srli"
  | .srai _ _ _ => "srai"
  | .add _ _ _ => "add"
  | .sub _ _ _ => "sub"
  | .sll _ _ _ => "sll"
  | .slt _ _ _ => "slt"
  | .sltu _ _ _ => "sltu"
  | .xor _ _ _ => "xor"
  | .srl _ _ _ => "srl"
  | .sra _ _ _ => "sra"
  | .or _ _ _ => "or"
  | .and _ _ _ => "and"

/-! ### The rows' masks on the six formats -/

theorem encodeU_mask (op : BitVec 7) (rd : RegIdx) (v : Word) :
    encodeU op rd v &&& 0x0000007F#32 = packWord 0 0 0 0 0 op :=
  (matches_opcode _ _).mpr (by simp [encodeU])

theorem encodeJ_mask (op : BitVec 7) (rd : RegIdx) (v : Word) :
    encodeJ op rd v &&& 0x0000007F#32 = packWord 0 0 0 0 0 op :=
  (matches_opcode _ _).mpr (by simp [encodeJ])

theorem encodeI_mask (f3 : BitVec 3) (op : BitVec 7) (rd rs1 : RegIdx) (v : Word) :
    encodeI f3 op rd rs1 v &&& 0x0000707F#32 = packWord 0 0 0 f3 0 op :=
  (matches_funct3 _ _ _).mpr (by simp [encodeI])

theorem encodeS_mask (f3 : BitVec 3) (op : BitVec 7) (rs1 rs2 : RegIdx) (v : Word) :
    encodeS f3 op rs1 rs2 v &&& 0x0000707F#32 = packWord 0 0 0 f3 0 op :=
  (matches_funct3 _ _ _).mpr (by simp [encodeS])

theorem encodeB_mask (f3 : BitVec 3) (op : BitVec 7) (rs1 rs2 : RegIdx) (v : Word) :
    encodeB f3 op rs1 rs2 v &&& 0x0000707F#32 = packWord 0 0 0 f3 0 op :=
  (matches_funct3 _ _ _).mpr (by simp [encodeB])

theorem encodeR_mask (f7 : BitVec 7) (f3 : BitVec 3) (op : BitVec 7) (rd rs1 rs2 : RegIdx) :
    encodeR f7 f3 op rd rs1 rs2 &&& 0xFE00707F#32 = packWord f7 0 0 f3 0 op :=
  (matches_funct7 _ _ _ _).mpr (by simp [encodeR])

/-- A row's test succeeds when the masked word is the row's pattern. -/
theorem matchesWord_of_and {r : OpcodeRow} {iw p : Word} (h : iw &&& r.mask = p) (hp : p = r.pattern) :
    r.matchesWord iw = true := by
  simp [OpcodeRow.matchesWord, h, hp]

namespace EncodesInRow

/-- The instruction's word is in its own row. -/
def Statement (i : Instr) : Prop :=
  ∃ r ∈ opcodeTable, r.mnemonic = mnemonic i ∧ r.matchesWord (encode i) = true

theorem lui (rd : RegIdx) (imm : Word) : Statement (.lui rd imm) :=
  ⟨⟨"lui", .loadUpperImm, .U, 0x00000037#32, 0x0000007F#32⟩, by decide, rfl, matchesWord_of_and (encodeU_mask ..) (by decide)⟩

theorem auipc (rd : RegIdx) (imm : Word) : Statement (.auipc rd imm) :=
  ⟨⟨"auipc", .addUpperImmPC, .U, 0x00000017#32, 0x0000007F#32⟩, by decide, rfl, matchesWord_of_and (encodeU_mask ..) (by decide)⟩

theorem jal (rd : RegIdx) (imm : Word) : Statement (.jal rd imm) :=
  ⟨⟨"jal", .jumpAndLink, .J, 0x0000006F#32, 0x0000007F#32⟩, by decide, rfl, matchesWord_of_and (encodeJ_mask ..) (by decide)⟩

theorem jalr (rd rs1 : RegIdx) (imm : Word) : Statement (.jalr rd rs1 imm) :=
  ⟨⟨"jalr", .jumpAndLinkReg, .I, 0x00000067#32, 0x0000707F#32⟩, by decide, rfl, matchesWord_of_and (encodeI_mask ..) (by decide)⟩

theorem beq (rs1 rs2 : RegIdx) (imm : Word) : Statement (.beq rs1 rs2 imm) :=
  ⟨⟨"beq", .branchEQ, .B, 0x00000063#32, 0x0000707F#32⟩, by decide, rfl, matchesWord_of_and (encodeB_mask ..) (by decide)⟩

theorem bne (rs1 rs2 : RegIdx) (imm : Word) : Statement (.bne rs1 rs2 imm) :=
  ⟨⟨"bne", .branchNE, .B, 0x00001063#32, 0x0000707F#32⟩, by decide, rfl, matchesWord_of_and (encodeB_mask ..) (by decide)⟩

theorem blt (rs1 rs2 : RegIdx) (imm : Word) : Statement (.blt rs1 rs2 imm) :=
  ⟨⟨"blt", .branchLT, .B, 0x00004063#32, 0x0000707F#32⟩, by decide, rfl, matchesWord_of_and (encodeB_mask ..) (by decide)⟩

theorem bge (rs1 rs2 : RegIdx) (imm : Word) : Statement (.bge rs1 rs2 imm) :=
  ⟨⟨"bge", .branchGE, .B, 0x00005063#32, 0x0000707F#32⟩, by decide, rfl, matchesWord_of_and (encodeB_mask ..) (by decide)⟩

theorem bltu (rs1 rs2 : RegIdx) (imm : Word) : Statement (.bltu rs1 rs2 imm) :=
  ⟨⟨"bltu", .branchLTU, .B, 0x00006063#32, 0x0000707F#32⟩, by decide, rfl, matchesWord_of_and (encodeB_mask ..) (by decide)⟩

theorem bgeu (rs1 rs2 : RegIdx) (imm : Word) : Statement (.bgeu rs1 rs2 imm) :=
  ⟨⟨"bgeu", .branchGEU, .B, 0x00007063#32, 0x0000707F#32⟩, by decide, rfl, matchesWord_of_and (encodeB_mask ..) (by decide)⟩

theorem lb (rd rs1 : RegIdx) (imm : Word) : Statement (.lb rd rs1 imm) :=
  ⟨⟨"lb", .loadByte, .I, 0x00000003#32, 0x0000707F#32⟩, by decide, rfl, matchesWord_of_and (encodeI_mask ..) (by decide)⟩

theorem lh (rd rs1 : RegIdx) (imm : Word) : Statement (.lh rd rs1 imm) :=
  ⟨⟨"lh", .loadHalf, .I, 0x00001003#32, 0x0000707F#32⟩, by decide, rfl, matchesWord_of_and (encodeI_mask ..) (by decide)⟩

theorem lw (rd rs1 : RegIdx) (imm : Word) : Statement (.lw rd rs1 imm) :=
  ⟨⟨"lw", .loadWord, .I, 0x00002003#32, 0x0000707F#32⟩, by decide, rfl, matchesWord_of_and (encodeI_mask ..) (by decide)⟩

theorem lbu (rd rs1 : RegIdx) (imm : Word) : Statement (.lbu rd rs1 imm) :=
  ⟨⟨"lbu", .loadByteU, .I, 0x00004003#32, 0x0000707F#32⟩, by decide, rfl, matchesWord_of_and (encodeI_mask ..) (by decide)⟩

theorem lhu (rd rs1 : RegIdx) (imm : Word) : Statement (.lhu rd rs1 imm) :=
  ⟨⟨"lhu", .loadHalfU, .I, 0x00005003#32, 0x0000707F#32⟩, by decide, rfl, matchesWord_of_and (encodeI_mask ..) (by decide)⟩

theorem sb (rs1 rs2 : RegIdx) (imm : Word) : Statement (.sb rs1 rs2 imm) :=
  ⟨⟨"sb", .storeByte, .S, 0x00000023#32, 0x0000707F#32⟩, by decide, rfl, matchesWord_of_and (encodeS_mask ..) (by decide)⟩

theorem sh (rs1 rs2 : RegIdx) (imm : Word) : Statement (.sh rs1 rs2 imm) :=
  ⟨⟨"sh", .storeHalf, .S, 0x00001023#32, 0x0000707F#32⟩, by decide, rfl, matchesWord_of_and (encodeS_mask ..) (by decide)⟩

theorem sw (rs1 rs2 : RegIdx) (imm : Word) : Statement (.sw rs1 rs2 imm) :=
  ⟨⟨"sw", .storeWord, .S, 0x00002023#32, 0x0000707F#32⟩, by decide, rfl, matchesWord_of_and (encodeS_mask ..) (by decide)⟩

theorem addi (rd rs1 : RegIdx) (imm : Word) : Statement (.addi rd rs1 imm) :=
  ⟨⟨"addi", .addImm, .I, 0x00000013#32, 0x0000707F#32⟩, by decide, rfl, matchesWord_of_and (encodeI_mask ..) (by decide)⟩

theorem slti (rd rs1 : RegIdx) (imm : Word) : Statement (.slti rd rs1 imm) :=
  ⟨⟨"slti", .setLTImm, .I, 0x00002013#32, 0x0000707F#32⟩, by decide, rfl, matchesWord_of_and (encodeI_mask ..) (by decide)⟩

theorem sltiu (rd rs1 : RegIdx) (imm : Word) : Statement (.sltiu rd rs1 imm) :=
  ⟨⟨"sltiu", .setLTImmU, .I, 0x00003013#32, 0x0000707F#32⟩, by decide, rfl, matchesWord_of_and (encodeI_mask ..) (by decide)⟩

theorem xori (rd rs1 : RegIdx) (imm : Word) : Statement (.xori rd rs1 imm) :=
  ⟨⟨"xori", .xorImm, .I, 0x00004013#32, 0x0000707F#32⟩, by decide, rfl, matchesWord_of_and (encodeI_mask ..) (by decide)⟩

theorem ori (rd rs1 : RegIdx) (imm : Word) : Statement (.ori rd rs1 imm) :=
  ⟨⟨"ori", .orImm, .I, 0x00006013#32, 0x0000707F#32⟩, by decide, rfl, matchesWord_of_and (encodeI_mask ..) (by decide)⟩

theorem andi (rd rs1 : RegIdx) (imm : Word) : Statement (.andi rd rs1 imm) :=
  ⟨⟨"andi", .andImm, .I, 0x00007013#32, 0x0000707F#32⟩, by decide, rfl, matchesWord_of_and (encodeI_mask ..) (by decide)⟩

theorem slli (rd rs1 : RegIdx) (shamt : BitVec 5) : Statement (.slli rd rs1 shamt) :=
  ⟨⟨"slli", .shiftLeftImm, .I, 0x00001013#32, 0xFE00707F#32⟩, by decide, rfl, matchesWord_of_and (encodeR_mask ..) (by decide)⟩

theorem srli (rd rs1 : RegIdx) (shamt : BitVec 5) : Statement (.srli rd rs1 shamt) :=
  ⟨⟨"srli", .shiftRightImm, .I, 0x00005013#32, 0xFE00707F#32⟩, by decide, rfl, matchesWord_of_and (encodeR_mask ..) (by decide)⟩

theorem srai (rd rs1 : RegIdx) (shamt : BitVec 5) : Statement (.srai rd rs1 shamt) :=
  ⟨⟨"srai", .shiftRightImm, .I, 0x40005013#32, 0xFE00707F#32⟩, by decide, rfl, matchesWord_of_and (encodeR_mask ..) (by decide)⟩

theorem add (rd rs1 rs2 : RegIdx) : Statement (.add rd rs1 rs2) :=
  ⟨⟨"add", .addOrSub, .R, 0x00000033#32, 0xFE00707F#32⟩, by decide, rfl, matchesWord_of_and (encodeR_mask ..) (by decide)⟩

theorem sub (rd rs1 rs2 : RegIdx) : Statement (.sub rd rs1 rs2) :=
  ⟨⟨"sub", .addOrSub, .R, 0x40000033#32, 0xFE00707F#32⟩, by decide, rfl, matchesWord_of_and (encodeR_mask ..) (by decide)⟩

theorem sll (rd rs1 rs2 : RegIdx) : Statement (.sll rd rs1 rs2) :=
  ⟨⟨"sll", .shiftLeft, .R, 0x00001033#32, 0xFE00707F#32⟩, by decide, rfl, matchesWord_of_and (encodeR_mask ..) (by decide)⟩

theorem slt (rd rs1 rs2 : RegIdx) : Statement (.slt rd rs1 rs2) :=
  ⟨⟨"slt", .setLT, .R, 0x00002033#32, 0xFE00707F#32⟩, by decide, rfl, matchesWord_of_and (encodeR_mask ..) (by decide)⟩

theorem sltu (rd rs1 rs2 : RegIdx) : Statement (.sltu rd rs1 rs2) :=
  ⟨⟨"sltu", .setLTU, .R, 0x00003033#32, 0xFE00707F#32⟩, by decide, rfl, matchesWord_of_and (encodeR_mask ..) (by decide)⟩

theorem xor (rd rs1 rs2 : RegIdx) : Statement (.xor rd rs1 rs2) :=
  ⟨⟨"xor", .xor, .R, 0x00004033#32, 0xFE00707F#32⟩, by decide, rfl, matchesWord_of_and (encodeR_mask ..) (by decide)⟩

theorem srl (rd rs1 rs2 : RegIdx) : Statement (.srl rd rs1 rs2) :=
  ⟨⟨"srl", .shiftRight, .R, 0x00005033#32, 0xFE00707F#32⟩, by decide, rfl, matchesWord_of_and (encodeR_mask ..) (by decide)⟩

theorem sra (rd rs1 rs2 : RegIdx) : Statement (.sra rd rs1 rs2) :=
  ⟨⟨"sra", .shiftRight, .R, 0x40005033#32, 0xFE00707F#32⟩, by decide, rfl, matchesWord_of_and (encodeR_mask ..) (by decide)⟩

theorem or (rd rs1 rs2 : RegIdx) : Statement (.or rd rs1 rs2) :=
  ⟨⟨"or", .or, .R, 0x00006033#32, 0xFE00707F#32⟩, by decide, rfl, matchesWord_of_and (encodeR_mask ..) (by decide)⟩

theorem and (rd rs1 rs2 : RegIdx) : Statement (.and rd rs1 rs2) :=
  ⟨⟨"and", .and, .R, 0x00007033#32, 0xFE00707F#32⟩, by decide, rfl, matchesWord_of_and (encodeR_mask ..) (by decide)⟩

end EncodesInRow

end Sys2Proof.Laws
end

