-- ==== Sys2Proof/Laws/State.lean ====
section
/-! SUPPORT. One lemma per field per update of the state, so that no later proof unfolds a record update. -/

namespace Sys2Proof.Machine

/-! ### setPc, advance -/

@[simp] theorem setPc_cfg (s : State) (t : Word) : (s.setPc t).cfg = s.cfg := rfl
@[simp] theorem setPc_pc (s : State) (t : Word) : (s.setPc t).pc = t := rfl
@[simp] theorem setPc_regs (s : State) (t : Word) : (s.setPc t).regs = s.regs := rfl
@[simp] theorem setPc_mem (s : State) (t : Word) : (s.setPc t).mem = s.mem := rfl
@[simp] theorem setPc_output (s : State) (t : Word) : (s.setPc t).output = s.output := rfl
@[simp] theorem setPc_draws (s : State) (t : Word) : (s.setPc t).draws = s.draws := rfl
@[simp] theorem setPc_self (s : State) : s.setPc s.pc = s := rfl

@[simp] theorem advance_cfg (s : State) : s.advance.cfg = s.cfg := rfl
@[simp] theorem advance_pc (s : State) : s.advance.pc = s.pc + 4#32 := rfl
@[simp] theorem advance_regs (s : State) : s.advance.regs = s.regs := rfl
@[simp] theorem advance_mem (s : State) : s.advance.mem = s.mem := rfl
@[simp] theorem advance_output (s : State) : s.advance.output = s.output := rfl
@[simp] theorem advance_draws (s : State) : s.advance.draws = s.draws := rfl

/-! ### emit -/

@[simp] theorem emit_cfg (s : State) (b : Byte) : (s.emit b).cfg = s.cfg := rfl
@[simp] theorem emit_pc (s : State) (b : Byte) : (s.emit b).pc = s.pc := rfl
@[simp] theorem emit_regs (s : State) (b : Byte) : (s.emit b).regs = s.regs := rfl
@[simp] theorem emit_mem (s : State) (b : Byte) : (s.emit b).mem = s.mem := rfl
@[simp] theorem emit_output (s : State) (b : Byte) : (s.emit b).output = s.output ++ [b] := rfl
@[simp] theorem emit_draws (s : State) (b : Byte) : (s.emit b).draws = s.draws := rfl

/-! ### afterRead: only the count of free values can change -/

@[simp] theorem afterRead_cfg (s : State) (a : Word) : (s.afterRead a).cfg = s.cfg := by
  unfold State.afterRead; split <;> rfl
@[simp] theorem afterRead_pc (s : State) (a : Word) : (s.afterRead a).pc = s.pc := by
  unfold State.afterRead; split <;> rfl
@[simp] theorem afterRead_regs (s : State) (a : Word) : (s.afterRead a).regs = s.regs := by
  unfold State.afterRead; split <;> rfl
@[simp] theorem afterRead_mem (s : State) (a : Word) : (s.afterRead a).mem = s.mem := by
  unfold State.afterRead; split <;> rfl
@[simp] theorem afterRead_output (s : State) (a : Word) : (s.afterRead a).output = s.output := by
  unfold State.afterRead; split <;> rfl
theorem afterRead_draws (s : State) (a : Word) :
    (s.afterRead a).draws = if inWindow s.cfg a then s.draws else s.draws + 1 := by
  unfold State.afterRead; split <;> rfl
theorem afterRead_of_inWindow {s : State} {a : Word} (h : inWindow s.cfg a = true) : s.afterRead a = s := by
  simp [State.afterRead, h]

/-! ### writeReg: only the register file can change -/

@[simp] theorem writeReg_cfg (s : State) (i : RegIdx) (v : Word) : (s.writeReg i v).cfg = s.cfg := by
  unfold State.writeReg; split <;> rfl
@[simp] theorem writeReg_pc (s : State) (i : RegIdx) (v : Word) : (s.writeReg i v).pc = s.pc := by
  unfold State.writeReg; split <;> rfl
@[simp] theorem writeReg_mem (s : State) (i : RegIdx) (v : Word) : (s.writeReg i v).mem = s.mem := by
  unfold State.writeReg; split <;> rfl
@[simp] theorem writeReg_output (s : State) (i : RegIdx) (v : Word) : (s.writeReg i v).output = s.output := by
  unfold State.writeReg; split <;> rfl
@[simp] theorem writeReg_draws (s : State) (i : RegIdx) (v : Word) : (s.writeReg i v).draws = s.draws := by
  unfold State.writeReg; split <;> rfl
@[simp] theorem writeReg_zero (s : State) (v : Word) : s.writeReg 0#5 v = s := rfl

/-! ### writeBack -/

@[simp] theorem writeBack_cfg (s : State) (i : RegIdx) (v : Word) : (s.writeBack i v).cfg = s.cfg := by
  simp [State.writeBack]
@[simp] theorem writeBack_pc (s : State) (i : RegIdx) (v : Word) : (s.writeBack i v).pc = s.pc + 4#32 := by
  simp [State.writeBack]
@[simp] theorem writeBack_regs (s : State) (i : RegIdx) (v : Word) :
    (s.writeBack i v).regs = (s.writeReg i v).regs := rfl
@[simp] theorem writeBack_mem (s : State) (i : RegIdx) (v : Word) : (s.writeBack i v).mem = s.mem := by
  simp [State.writeBack]
@[simp] theorem writeBack_output (s : State) (i : RegIdx) (v : Word) : (s.writeBack i v).output = s.output := by
  simp [State.writeBack]
@[simp] theorem writeBack_draws (s : State) (i : RegIdx) (v : Word) : (s.writeBack i v).draws = s.draws := by
  simp [State.writeBack]

/-! ### linkAndJump, branch, finishLoad -/

@[simp] theorem linkAndJump_cfg (s : State) (i : RegIdx) (t : Word) : (s.linkAndJump i t).cfg = s.cfg := by
  simp [State.linkAndJump]
@[simp] theorem linkAndJump_pc (s : State) (i : RegIdx) (t : Word) : (s.linkAndJump i t).pc = t := rfl
@[simp] theorem linkAndJump_regs (s : State) (i : RegIdx) (t : Word) :
    (s.linkAndJump i t).regs = (s.writeReg i (s.pc + 4#32)).regs := rfl
@[simp] theorem linkAndJump_mem (s : State) (i : RegIdx) (t : Word) : (s.linkAndJump i t).mem = s.mem := by
  simp [State.linkAndJump]
@[simp] theorem linkAndJump_output (s : State) (i : RegIdx) (t : Word) :
    (s.linkAndJump i t).output = s.output := by
  simp [State.linkAndJump]
@[simp] theorem linkAndJump_draws (s : State) (i : RegIdx) (t : Word) : (s.linkAndJump i t).draws = s.draws := by
  simp [State.linkAndJump]

@[simp] theorem branch_cfg (s : State) (c : Bool) (imm : Word) : (s.branch c imm).cfg = s.cfg := by
  cases c <;> rfl
theorem branch_pc (s : State) (c : Bool) (imm : Word) :
    (s.branch c imm).pc = if c then s.pc + imm else s.pc + 4#32 := by
  cases c <;> rfl
@[simp] theorem branch_regs (s : State) (c : Bool) (imm : Word) : (s.branch c imm).regs = s.regs := by
  cases c <;> rfl
@[simp] theorem branch_mem (s : State) (c : Bool) (imm : Word) : (s.branch c imm).mem = s.mem := by
  cases c <;> rfl
@[simp] theorem branch_output (s : State) (c : Bool) (imm : Word) : (s.branch c imm).output = s.output := by
  cases c <;> rfl
@[simp] theorem branch_draws (s : State) (c : Bool) (imm : Word) : (s.branch c imm).draws = s.draws := by
  cases c <;> rfl

@[simp] theorem finishLoad_cfg (s : State) (rd : RegIdx) (ea v : Word) : (s.finishLoad rd ea v).cfg = s.cfg := by
  simp [State.finishLoad]
@[simp] theorem finishLoad_pc (s : State) (rd : RegIdx) (ea v : Word) :
    (s.finishLoad rd ea v).pc = s.pc + 4#32 := by
  simp [State.finishLoad]
@[simp] theorem finishLoad_mem (s : State) (rd : RegIdx) (ea v : Word) : (s.finishLoad rd ea v).mem = s.mem := by
  simp [State.finishLoad]
@[simp] theorem finishLoad_output (s : State) (rd : RegIdx) (ea v : Word) :
    (s.finishLoad rd ea v).output = s.output := by
  simp [State.finishLoad]

/-! ### writeWord: only the port's stream or memory can change -/

@[simp] theorem writeWord_cfg (s : State) (a : Word) (be : ByteEnable) (d : Word) :
    (s.writeWord a be d).cfg = s.cfg := by
  unfold State.writeWord; repeat' split
  all_goals rfl
@[simp] theorem writeWord_pc (s : State) (a : Word) (be : ByteEnable) (d : Word) :
    (s.writeWord a be d).pc = s.pc := by
  unfold State.writeWord; repeat' split
  all_goals rfl
@[simp] theorem writeWord_regs (s : State) (a : Word) (be : ByteEnable) (d : Word) :
    (s.writeWord a be d).regs = s.regs := by
  unfold State.writeWord; repeat' split
  all_goals rfl
@[simp] theorem writeWord_draws (s : State) (a : Word) (be : ByteEnable) (d : Word) :
    (s.writeWord a be d).draws = s.draws := by
  unfold State.writeWord; repeat' split
  all_goals rfl

/-! ### The three stores -/

@[simp] theorem memWrite1_cfg (s : State) (ea v : Word) : (s.memWrite1 ea v).cfg = s.cfg := writeWord_cfg ..
@[simp] theorem memWrite1_pc (s : State) (ea v : Word) : (s.memWrite1 ea v).pc = s.pc := writeWord_pc ..
@[simp] theorem memWrite1_regs (s : State) (ea v : Word) : (s.memWrite1 ea v).regs = s.regs := writeWord_regs ..
@[simp] theorem memWrite1_draws (s : State) (ea v : Word) : (s.memWrite1 ea v).draws = s.draws :=
  writeWord_draws ..
@[simp] theorem memWrite2_cfg (s : State) (ea v : Word) : (s.memWrite2 ea v).cfg = s.cfg := writeWord_cfg ..
@[simp] theorem memWrite2_pc (s : State) (ea v : Word) : (s.memWrite2 ea v).pc = s.pc := writeWord_pc ..
@[simp] theorem memWrite2_regs (s : State) (ea v : Word) : (s.memWrite2 ea v).regs = s.regs := writeWord_regs ..
@[simp] theorem memWrite2_draws (s : State) (ea v : Word) : (s.memWrite2 ea v).draws = s.draws :=
  writeWord_draws ..
@[simp] theorem memWrite4_cfg (s : State) (ea v : Word) : (s.memWrite4 ea v).cfg = s.cfg := writeWord_cfg ..
@[simp] theorem memWrite4_pc (s : State) (ea v : Word) : (s.memWrite4 ea v).pc = s.pc := writeWord_pc ..
@[simp] theorem memWrite4_regs (s : State) (ea v : Word) : (s.memWrite4 ea v).regs = s.regs := writeWord_regs ..
@[simp] theorem memWrite4_draws (s : State) (ea v : Word) : (s.memWrite4 ea v).draws = s.draws :=
  writeWord_draws ..

/-! ### The fetch -/

@[simp] theorem afterFetch_cfg (s : State) : s.afterFetch.cfg = s.cfg := afterRead_cfg ..
@[simp] theorem afterFetch_pc (s : State) : s.afterFetch.pc = s.pc := afterRead_pc ..
@[simp] theorem afterFetch_regs (s : State) : s.afterFetch.regs = s.regs := afterRead_regs ..
@[simp] theorem afterFetch_mem (s : State) : s.afterFetch.mem = s.mem := afterRead_mem ..
@[simp] theorem afterFetch_output (s : State) : s.afterFetch.output = s.output := afterRead_output ..

end Sys2Proof.Machine
end

