-- ==== Sys2Proof/Laws/Registers.lean ====
section
/-! SUPPORT. What a register read sees after each update (spec/10_state.md R11 to R13). -/

namespace Sys2Proof.Machine

/-- A register read depends on the register file alone. -/
theorem readReg_of_regs {s t : State} (h : t.regs = s.regs) (i : RegIdx) : t.readReg i = s.readReg i := by
  simp [State.readReg, h]

@[simp] theorem readReg_zero (s : State) : s.readReg 0#5 = 0x00000000#32 := rfl

/-- The register file after a write: the named register holds the value, register 0 still reads as zero. -/
theorem readReg_writeReg (s : State) (i r : RegIdx) (v : Word) :
    (s.writeReg i v).readReg r = if r = i ∧ r ≠ 0#5 then v else s.readReg r := by
  unfold State.writeReg State.readReg
  by_cases hi : i = 0#5
  · subst hi
    by_cases hr : r = 0#5 <;> simp [hr]
  · by_cases hr : r = 0#5
    · simp [hr]
    · have hi' : i.toNat ≠ 0 := fun h => hi (BitVec.eq_of_toNat_eq (by simpa using h))
      have hr' : r.toNat ≠ 0 := fun h => hr (BitVec.eq_of_toNat_eq (by simpa using h))
      by_cases h : r = i
      · subst h; simp [hr]
      · have hne : i.toNat - 1 ≠ r.toNat - 1 := fun e => h (BitVec.eq_of_toNat_eq (by omega))
        simp [hi, hr, h, hne]

@[simp] theorem readReg_setPc (s : State) (t : Word) (r : RegIdx) : (s.setPc t).readReg r = s.readReg r := rfl
@[simp] theorem readReg_advance (s : State) (r : RegIdx) : s.advance.readReg r = s.readReg r := rfl
@[simp] theorem readReg_emit (s : State) (b : Byte) (r : RegIdx) : (s.emit b).readReg r = s.readReg r := rfl
@[simp] theorem readReg_branch (s : State) (c : Bool) (imm : Word) (r : RegIdx) :
    (s.branch c imm).readReg r = s.readReg r := readReg_of_regs (branch_regs ..) r
@[simp] theorem readReg_afterRead (s : State) (a : Word) (r : RegIdx) :
    (s.afterRead a).readReg r = s.readReg r := readReg_of_regs (afterRead_regs ..) r
@[simp] theorem readReg_afterFetch (s : State) (r : RegIdx) : s.afterFetch.readReg r = s.readReg r :=
  readReg_afterRead ..
@[simp] theorem readReg_writeWord (s : State) (a : Word) (be : ByteEnable) (d : Word) (r : RegIdx) :
    (s.writeWord a be d).readReg r = s.readReg r := readReg_of_regs (writeWord_regs ..) r
@[simp] theorem readReg_memWrite1 (s : State) (ea v : Word) (r : RegIdx) :
    (s.memWrite1 ea v).readReg r = s.readReg r := readReg_writeWord ..
@[simp] theorem readReg_memWrite2 (s : State) (ea v : Word) (r : RegIdx) :
    (s.memWrite2 ea v).readReg r = s.readReg r := readReg_writeWord ..
@[simp] theorem readReg_memWrite4 (s : State) (ea v : Word) (r : RegIdx) :
    (s.memWrite4 ea v).readReg r = s.readReg r := readReg_writeWord ..

theorem readReg_writeBack (s : State) (i r : RegIdx) (v : Word) :
    (s.writeBack i v).readReg r = if r = i ∧ r ≠ 0#5 then v else s.readReg r := readReg_writeReg ..

theorem readReg_linkAndJump (s : State) (i r : RegIdx) (t : Word) :
    (s.linkAndJump i t).readReg r = if r = i ∧ r ≠ 0#5 then s.pc + 4#32 else s.readReg r := readReg_writeReg ..

theorem readReg_finishLoad (s : State) (i r : RegIdx) (ea v : Word) :
    (s.finishLoad i ea v).readReg r = if r = i ∧ r ≠ 0#5 then v else s.readReg r := by
  simp [State.finishLoad, readReg_writeBack]

end Sys2Proof.Machine
end

