-- ==== Sys2Proof/Laws/Window.lean ====
section
/-! SUPPORT. The window and the aligned word of an address (spec/20_memory.md R32, R33, R35, R41, R48): in a legal
build, the word an address selects is the four bytes from the address with its low two bits cleared. -/

namespace Sys2Proof.Machine

/-- What a legal build is, as facts about numbers (00_scope R5). -/
theorem legalBuild_iff (c : Config) : legalBuild c = true ↔
    c.memBase.toNat % 4 = 0 ∧ c.memEnd.toNat % 4 = 0 ∧ c.outAddr.toNat % 4 = 0 ∧
      c.memBase.toNat < c.memEnd.toNat ∧ (c.outAddr.toNat < c.memBase.toNat ∨ c.memEnd.toNat ≤ c.outAddr.toNat) := by
  simp [legalBuild]

theorem inWindow_iff (c : Config) (a : Word) :
    inWindow c a = true ↔ c.memBase.toNat ≤ a.toNat ∧ a.toNat < c.memEnd.toNat := by
  simp [inWindow]

/-- Clearing the low two bits rounds the address down to a multiple of 4. -/
theorem wordAlign_toNat (a : Word) : (wordAlign a).toNat = a.toNat / 4 * 4 := by
  have hbits : ∀ i : Fin 32, (0xFFFFFFFC#32).getLsbD i.val = decide (2 ≤ i.val) := by decide
  have h : wordAlign a = (a >>> 2) <<< 2 := by
    apply BitVec.eq_of_getLsbD_eq
    intro i hi
    have hb := hbits ⟨i, hi⟩
    simp only at hb
    simp only [wordAlign, BitVec.getLsbD_and, hb, BitVec.getLsbD_shiftLeft, BitVec.getLsbD_ushiftRight, hi]
    by_cases h2 : 2 ≤ i
    · simp [h2, show ¬ i < 2 by omega, show 2 + (i - 2) = i by omega]
    · simp [h2, show i < 2 by omega]
  have ha := a.isLt
  rw [h, BitVec.toNat_shiftLeft, BitVec.toNat_ushiftRight, Nat.shiftRight_eq_div_pow, Nat.shiftLeft_eq]
  omega

theorem wordAlign_wordAlign (a : Word) : wordAlign (wordAlign a) = wordAlign a := by
  apply BitVec.eq_of_toNat_eq
  simp only [wordAlign_toNat]
  omega

section Legal

variable {c : Config} (hc : legalBuild c = true)
include hc

/-- Alignment does not cross the window's ends, which are multiples of 4. -/
theorem inWindow_wordAlign (a : Word) : inWindow c (wordAlign a) = inWindow c a := by
  have h := (legalBuild_iff c).mp hc
  rw [Bool.eq_iff_iff, inWindow_iff, inWindow_iff, wordAlign_toNat]
  omega

/-- The word an address of the window selects begins at the aligned address (R33, R35). -/
theorem wordKey_eq {a : Word} (ha : inWindow c a = true) : wordKey c a = (wordAlign a).toNat := by
  have h := (legalBuild_iff c).mp hc
  have hw := (inWindow_iff c a).mp ha
  rw [wordAlign_toNat]
  unfold wordKey wordBase wordIndex
  omega

/-- All four bytes of the word lie in the window. -/
theorem wordKey_bounds {a : Word} (ha : inWindow c a = true) :
    c.memBase.toNat ≤ wordKey c a ∧ wordKey c a + 3 < c.memEnd.toNat := by
  have h := (legalBuild_iff c).mp hc
  have hw := (inWindow_iff c a).mp ha
  rw [wordKey_eq hc ha, wordAlign_toNat]
  omega

/-- The sentinel is outside the window (00_scope R5). -/
theorem ne_outAddr_of_inWindow {a : Word} (ha : inWindow c a = true) : a ≠ c.outAddr := by
  have h := (legalBuild_iff c).mp hc
  have hw := (inWindow_iff c a).mp ha
  rintro rfl
  omega

end Legal

/-! ### Lanes (R41, R46) -/

theorem byteLane_eq (ea : Word) : byteLane ea = ea.toNat % 4 := by
  simp [byteLane, BitVec.extractLsb'_toNat]

theorem halfLane_eq (ea : Word) : halfLane ea = ea.toNat / 2 % 2 := by
  simp [halfLane, BitVec.extractLsb'_toNat, Nat.shiftRight_eq_div_pow]

theorem byteLane_lt (ea : Word) : byteLane ea < 4 := by rw [byteLane_eq]; omega

theorem halfLane_lt (ea : Word) : halfLane ea < 2 := by rw [halfLane_eq]; omega

/-- Lane `i` of the word made of four bytes is byte `i` (R41). -/
theorem lane_wordOfLanes (b0 b1 b2 b3 : Byte) :
    lane (wordOfLanes b0 b1 b2 b3) 0 = b0 ∧ lane (wordOfLanes b0 b1 b2 b3) 1 = b1 ∧
      lane (wordOfLanes b0 b1 b2 b3) 2 = b2 ∧ lane (wordOfLanes b0 b1 b2 b3) 3 = b3 := by
  have h : (wordOfLanes b0 b1 b2 b3).toNat =
      b3.toNat * 16777216 + b2.toNat * 65536 + b1.toNat * 256 + b0.toNat := by
    have := b0.isLt; have := b1.isLt; have := b2.isLt; have := b3.isLt
    simp only [wordOfLanes, BitVec.toNat_append]
    rw [← Nat.shiftLeft_add_eq_or_of_lt (by omega), ← Nat.shiftLeft_add_eq_or_of_lt (by omega),
      ← Nat.shiftLeft_add_eq_or_of_lt (by omega)]
    simp only [Nat.shiftLeft_eq]
    omega
  have := b0.isLt; have := b1.isLt; have := b2.isLt; have := b3.isLt
  refine ⟨?_, ?_, ?_, ?_⟩ <;> apply BitVec.eq_of_toNat_eq <;>
    simp only [lane, BitVec.extractLsb'_toNat, h, Nat.shiftRight_eq_div_pow] <;> omega

/-- The word made of a word's four lanes is the word (R41). -/
theorem wordOfLanes_lane (w : Word) : wordOfLanes (lane w 0) (lane w 1) (lane w 2) (lane w 3) = w := by
  have hw := w.isLt
  apply BitVec.eq_of_toNat_eq
  simp only [wordOfLanes, BitVec.toNat_append]
  have l0 := (lane w 0).isLt; have l1 := (lane w 1).isLt; have l2 := (lane w 2).isLt
  have l3 := (lane w 3).isLt
  rw [← Nat.shiftLeft_add_eq_or_of_lt (by omega), ← Nat.shiftLeft_add_eq_or_of_lt (by omega),
    ← Nat.shiftLeft_add_eq_or_of_lt (by omega)]
  simp only [Nat.shiftLeft_eq, lane, BitVec.extractLsb'_toNat, Nat.shiftRight_eq_div_pow]
  omega

/-- A word read back from memory has its bytes as lanes. -/
theorem lane_readWord (m : Memory) (k i : Nat) (hi : i < 4) :
    lane (Memory.readWord m k) i = Memory.readByte m (k + i) := by
  have h := lane_wordOfLanes (Memory.readByte m k) (Memory.readByte m (k + 1)) (Memory.readByte m (k + 2))
    (Memory.readByte m (k + 3))
  unfold Memory.readWord
  interval_cases i
  · exact h.1
  · exact h.2.1
  · exact h.2.2.1
  · exact h.2.2.2

/-- A word written under all four enables is read back. -/
theorem readWord_writeLanes_self (m : Memory) (k : Nat) (d : Word) :
    Memory.readWord (Memory.writeLanes m k 0b1111#4 d) k = d := by
  have h : ∀ i, i < 4 → Memory.readByte (Memory.writeLanes m k 0b1111#4 d) (k + i) = lane d i := by
    intro i hi
    rw [readByte_writeLanes]
    interval_cases i <;> simp
  unfold Memory.readWord
  rw [show Memory.readByte (Memory.writeLanes m k 0b1111#4 d) k = lane d 0 from h 0 (by omega), h 1 (by omega),
    h 2 (by omega), h 3 (by omega)]
  exact wordOfLanes_lane d

end Sys2Proof.Machine
end

