-- ==== Sys2Proof/Laws/Results.lean ====
section
/-! SUPPORT. Once for each shared operation, all it does and all it leaves, in the terms of Safety.lean. A proof about
an instruction cites the one for its shape and unfolds no record update. -/

namespace Sys2Proof.Machine

/-- The common end of a register result (40_execute_common R104). -/
theorem registerResult_writeBack (s : State) (rd : RegIdx) (v : Word) :
    RegisterResult s (s.writeBack rd v) rd v (s.pc + 4#32) :=
  ⟨fun _ => readReg_writeBack .., by simp, fun _ => by simp, by simp [RestKept]⟩

/-- The common end of a jump (42_jumps R130, R131). -/
theorem registerResult_linkAndJump (s : State) (rd : RegIdx) (t : Word) :
    RegisterResult s (s.linkAndJump rd t) rd (s.pc + 4#32) t :=
  ⟨fun _ => readReg_linkAndJump .., by simp, fun _ => by simp, by simp [RestKept]⟩

/-- The common end of a branch (43_branches). -/
theorem jumpResult_branch (s : State) (c : Bool) (imm : Word) :
    JumpResult s (s.branch c imm) (if c then s.pc + imm else s.pc + 4#32) :=
  ⟨fun _ => by simp, branch_pc .., fun _ => by simp, by simp [RestKept]⟩

/-- The common end of a load (44_loads). -/
theorem finishLoad_result (s : State) (rd : RegIdx) (ea v : Word) :
    RegWritten s (s.finishLoad rd ea v) rd v ∧ (s.finishLoad rd ea v).pc = s.pc + 4#32 ∧
      MemKept s (s.finishLoad rd ea v) ∧ (s.finishLoad rd ea v).cfg = s.cfg ∧
      (s.finishLoad rd ea v).output = s.output ∧
      (s.finishLoad rd ea v).draws = if inWindow s.cfg (wordAlign ea) then s.draws else s.draws + 1 := by
  refine ⟨fun _ => readReg_finishLoad .., by simp, fun _ => by simp, by simp, by simp, ?_⟩
  simp [State.finishLoad, afterRead_draws]

/-- A channel write at the sentinel: nothing is stored, and lane 0 follows on the port if it is enabled (20_memory
R39, R43). -/
theorem writeWord_outAddr (s : State) (be : ByteEnable) (d : Word) :
    (s.writeWord s.cfg.outAddr be d).mem = s.mem ∧
      (s.writeWord s.cfg.outAddr be d).output = s.output ++ if be.getLsbD 0 then [lane d 0] else [] := by
  simp only [State.writeWord, if_true]
  split <;> simp

/-- A channel write in the window: the enabled lanes of the addressed word are new, every other byte is old, and the
port is silent (20_memory R39). -/
theorem writeWord_window {s : State} {a : Word} (ho : a ≠ s.cfg.outAddr) (hw : inWindow s.cfg a = true)
    (be : ByteEnable) (d : Word) :
    (s.writeWord a be d).output = s.output ∧
      ∀ n : Nat, Memory.readByte (s.writeWord a be d).mem n =
        if wordKey s.cfg a ≤ n ∧ n < wordKey s.cfg a + 4 ∧ be.getLsbD (n - wordKey s.cfg a) = true then
          lane d (n - wordKey s.cfg a)
        else Memory.readByte s.mem n := by
  simp only [State.writeWord, if_neg ho, hw, if_true]
  exact ⟨trivial, fun n => readByte_writeLanes ..⟩

/-- A channel write elsewhere does nothing (20_memory R40). -/
theorem writeWord_elsewhere {s : State} {a : Word} (ho : a ≠ s.cfg.outAddr) (hw : inWindow s.cfg a = false)
    (be : ByteEnable) (d : Word) : s.writeWord a be d = s := by
  simp [State.writeWord, ho, hw]

/-! ### Enables and replicated data (20_memory R47) -/

theorem byteEnable1_bit (ea : Word) {i : Nat} (hi : i < 4) :
    (byteEnable1 ea).getLsbD i = decide (i = ea.toNat % 4) := by
  have := byteLane_lt ea
  rw [byteEnable1, ← byteLane_eq]
  generalize byteLane ea = k at *
  interval_cases k <;> interval_cases i <;> rfl

theorem byteEnable2_bit (ea : Word) {i : Nat} (hi : i < 4) :
    (byteEnable2 ea).getLsbD i = decide (i / 2 = ea.toNat / 2 % 2) := by
  have := halfLane_lt ea
  rw [byteEnable2, ← halfLane_eq]
  generalize halfLane ea = k at *
  interval_cases k <;> interval_cases i <;> rfl

theorem byteEnable4_bit {i : Nat} (hi : i < 4) : byteEnable4.getLsbD i = true := by
  interval_cases i <;> rfl

theorem lane_replicateByte (v : Word) {i : Nat} (hi : i < 4) : lane (replicateByte v) i = lane v 0 := by
  have h := lane_wordOfLanes (lane v 0) (lane v 0) (lane v 0) (lane v 0)
  unfold replicateByte
  interval_cases i <;> simp [h]

theorem lane_replicateHalf (v : Word) {i : Nat} (hi : i < 4) : lane (replicateHalf v) i = lane v (i % 2) := by
  have h := lane_wordOfLanes (lane v 0) (lane v 1) (lane v 0) (lane v 1)
  unfold replicateHalf
  interval_cases i <;> simp [h]

/-! ### The step -/

/-- What a step that answers has done: it executed the decoded instruction, or it stalled. -/
theorem step_next {s t : State} (h : step s = .next t) : legalBuild s.cfg = true ∧
    ((∃ i, decode s.fetchWord = .ok i ∧ exec i s.afterFetch = .next t) ∨
      ((∃ r, decode s.fetchWord = .error r) ∧ t = s.afterFetch)) := by
  unfold step at h
  split at h
  · rename_i hl
    refine ⟨hl, ?_⟩
    unfold runWord at h
    split at h
    · exact .inl ⟨_, ‹_›, h⟩
    · refine .inr ⟨⟨_, ‹_›⟩, ?_⟩
      cases h
      rfl
  · cases h

/-- No instruction changes the build's constants (00_scope R4). -/
theorem exec_cfg {i : Instr} {s t : State} (h : exec i s = .next t) : t.cfg = s.cfg := by
  cases i <;> cases h <;> simp

/-- A channel write leaves memory as it is, or writes the enabled lanes of one word of the window. -/
theorem writeWord_mem (s : State) (a : Word) (be : ByteEnable) (d : Word) :
    (s.writeWord a be d).mem = s.mem ∨ (inWindow s.cfg a = true ∧
      (s.writeWord a be d).mem = Memory.writeLanes s.mem (wordKey s.cfg a) be d) := by
  unfold State.writeWord
  split
  · split <;> exact .inl rfl
  · split
    · exact .inr ⟨‹_›, rfl⟩
    · exact .inl rfl

/-- What any instruction does to memory: nothing, or a write of the enabled lanes of the word its store addresses. -/
theorem exec_mem {i : Instr} {s t : State} (h : exec i s = .next t) : t.mem = s.mem ∨
    ∃ ea be d, storeTarget s i = some (ea, be) ∧ inWindow s.cfg (wordAlign ea) = true ∧
      t.mem = Memory.writeLanes s.mem (wordKey s.cfg (wordAlign ea)) be d := by
  cases i
  case sb =>
    cases h
    exact (writeWord_mem ..).imp id fun hw => ⟨_, _, _, rfl, hw.1, hw.2⟩
  case sh =>
    cases h
    exact (writeWord_mem ..).imp id fun hw => ⟨_, _, _, rfl, hw.1, hw.2⟩
  case sw =>
    cases h
    exact (writeWord_mem ..).imp id fun hw => ⟨_, _, _, rfl, hw.1, hw.2⟩
  all_goals exact .inl (by cases h; simp)

end Sys2Proof.Machine
end

