-- ==== Sys2Proof/Tests/Slice0.lean ====
section
/-! SUPPORT. The model's own tests: ill-formed terms refused, every constructor's decoding, single steps, and the
witnesses of the statements' hypotheses. Every expected value is of spec/95_test_vectors.md (the section is named at
each group) or computed by hand from the rule named. No value here was taken from the model's own answers. -/

namespace Sys2Proof.Tests

open Sys2Proof.Machine

/-! ### Helpers -/

/-- A state of the example configuration with registers and memory words set and the word to run placed at `pc`. -/
def placed (pc word : Word) (regs : List (RegIdx × Word)) (words : List (Nat × Word)) : State :=
  let s := regs.foldl (fun s r => s.writeReg r.1 r.2) (State.reset.setPc pc)
  let m := words.foldl (fun m w => Memory.writeLanes m w.1 0b1111#4 w.2) s.mem
  State.withFetchWord { s with mem := m } 32 word.toNat

/-- The next state, if the outcome is one. -/
def answer : Host.Outcome State Fault Refusal → Option State
  | .next t => some t
  | .fault _ => none
  | .refused _ => none

/-- After one step at `pc = 0x100`: the next `pc` and one register. -/
def reg (word : Word) (regs : List (RegIdx × Word)) (r : RegIdx) : Option (Word × Word) :=
  (answer (step (placed 0x100#32 word regs []))).map fun t => (t.pc, t.readReg r)

/-- The two memory words of the load vectors (section 4.4). -/
def loadWords : List (Nat × Word) := [(0x200, 0x80FF7F01#32), (0x204, 0xA1B2C3D4#32)]

/-- After one load at `pc = 0x100` with `x5 = 0x200`: the next `pc` and one register. -/
def load (word : Word) (r : RegIdx) : Option (Word × Word) :=
  (answer (step (placed 0x100#32 word [(5#5, 0x200#32)] loadWords))).map fun t => (t.pc, t.readReg r)

/-- The registers of the store vectors (section 4.5), for a base. -/
def storeRegs (base : Word) : List (RegIdx × Word) := [(5#5, base), (6#5, 0xAABBCCDD#32)]

/-- After one store at `pc = 0x100` with `x6 = 0xAABBCCDD` and `M[0x200] = 0x11223344`: the next `pc`, the word at
`0x200` and the port's stream. -/
def store (word base : Word) : Option (Word × Word × List Byte) :=
  (answer (step (placed 0x100#32 word (storeRegs base) [(0x200, 0x11223344#32)]))).map fun t =>
    (t.pc, Memory.readWord t.mem 0x200, t.output)

/-! ### WellFormed: for each check an ill-formed term, refused, beside the last value that is accepted (section 2.2) -/

theorem test_ill_formed_imm12 :
    Instr.wellFormed (.addi 1#5 2#5 0x00000800#32) = false ∧ Instr.wellFormed (.addi 1#5 2#5 0x000007FF#32) = true ∧
    Instr.wellFormed (.sw 4#5 3#5 0xFFFFF7FF#32) = false ∧ Instr.wellFormed (.sw 4#5 3#5 0xFFFFF800#32) = true := by
  decide

theorem test_ill_formed_immB :
    Instr.wellFormed (.beq 1#5 2#5 0x00001000#32) = false ∧ Instr.wellFormed (.beq 1#5 2#5 0x00000FFE#32) = true ∧
    Instr.wellFormed (.beq 1#5 2#5 0xFFFFEFFE#32) = false ∧ Instr.wellFormed (.beq 1#5 2#5 0xFFFFF000#32) = true ∧
    Instr.wellFormed (.beq 1#5 2#5 0x00000001#32) = false := by
  decide

theorem test_ill_formed_immU :
    Instr.wellFormed (.lui 5#5 0x00000FFF#32) = false ∧ Instr.wellFormed (.lui 5#5 0x80000000#32) = true := by
  decide

theorem test_ill_formed_immJ :
    Instr.wellFormed (.jal 1#5 0x00100000#32) = false ∧ Instr.wellFormed (.jal 1#5 0x000FFFFE#32) = true ∧
    Instr.wellFormed (.jal 1#5 0xFFEFFFFE#32) = false ∧ Instr.wellFormed (.jal 1#5 0xFFF00000#32) = true ∧
    Instr.wellFormed (.jal 1#5 0x00000003#32) = false := by
  decide

/-! ### Decoding: one word per constructor (section 3.1) -/

theorem test_decode_upperImmediate :
    decode 0x12345637#32 = .ok (.lui 12#5 0x12345000#32) ∧
    decode 0x00001297#32 = .ok (.auipc 5#5 0x00001000#32) := by
  decide

theorem test_decode_jumps :
    decode 0x010000EF#32 = .ok (.jal 1#5 0x00000010#32) ∧
    decode 0x005300E7#32 = .ok (.jalr 1#5 6#5 0x00000005#32) := by
  decide

theorem test_decode_branches :
    decode 0x00208463#32 = .ok (.beq 1#5 2#5 0x00000008#32) ∧
    decode 0xFE009CE3#32 = .ok (.bne 1#5 0#5 0xFFFFFFF8#32) ∧
    decode 0x0020C663#32 = .ok (.blt 1#5 2#5 0x0000000C#32) ∧
    decode 0xFE20DEE3#32 = .ok (.bge 1#5 2#5 0xFFFFFFFC#32) ∧
    decode 0x7E20EFE3#32 = .ok (.bltu 1#5 2#5 0x00000FFE#32) ∧
    decode 0x8020F063#32 = .ok (.bgeu 1#5 2#5 0xFFFFF000#32) := by
  decide

theorem test_decode_loads :
    decode 0x00128383#32 = .ok (.lb 7#5 5#5 0x00000001#32) ∧
    decode 0x00229483#32 = .ok (.lh 9#5 5#5 0x00000002#32) ∧
    decode 0xFFC2A583#32 = .ok (.lw 11#5 5#5 0xFFFFFFFC#32) ∧
    decode 0x0032C403#32 = .ok (.lbu 8#5 5#5 0x00000003#32) ∧
    decode 0x0022D503#32 = .ok (.lhu 10#5 5#5 0x00000002#32) := by
  decide

theorem test_decode_stores :
    decode 0x006281A3#32 = .ok (.sb 5#5 6#5 0x00000003#32) ∧
    decode 0x00629123#32 = .ok (.sh 5#5 6#5 0x00000002#32) ∧
    decode 0xFE62AE23#32 = .ok (.sw 5#5 6#5 0xFFFFFFFC#32) := by
  decide

theorem test_decode_aluImmediate :
    decode 0xFFF28293#32 = .ok (.addi 5#5 5#5 0xFFFFFFFF#32) ∧
    decode 0xFFF2A313#32 = .ok (.slti 6#5 5#5 0xFFFFFFFF#32) ∧
    decode 0x0012B313#32 = .ok (.sltiu 6#5 5#5 0x00000001#32) ∧
    decode 0xFFF2C313#32 = .ok (.xori 6#5 5#5 0xFFFFFFFF#32) ∧
    decode 0x82386293#32 = .ok (.ori 5#5 16#5 0xFFFFF823#32) ∧
    decode 0x0FF2F313#32 = .ok (.andi 6#5 5#5 0x000000FF#32) ∧
    decode 0x01F29313#32 = .ok (.slli 6#5 5#5 31#5) ∧
    decode 0x0042D313#32 = .ok (.srli 6#5 5#5 4#5) ∧
    decode 0x4042D313#32 = .ok (.srai 6#5 5#5 4#5) := by
  decide

theorem test_decode_aluRegister :
    decode 0x006283B3#32 = .ok (.add 7#5 5#5 6#5) ∧
    decode 0x406283B3#32 = .ok (.sub 7#5 5#5 6#5) ∧
    decode 0x006293B3#32 = .ok (.sll 7#5 5#5 6#5) ∧
    decode 0x0062A3B3#32 = .ok (.slt 7#5 5#5 6#5) ∧
    decode 0x0062B3B3#32 = .ok (.sltu 7#5 5#5 6#5) ∧
    decode 0x0062C3B3#32 = .ok (.xor 7#5 5#5 6#5) ∧
    decode 0x0062D3B3#32 = .ok (.srl 7#5 5#5 6#5) ∧
    decode 0x4062D3B3#32 = .ok (.sra 7#5 5#5 6#5) ∧
    decode 0x0062E3B3#32 = .ok (.or 7#5 5#5 6#5) ∧
    decode 0x0062F3B3#32 = .ok (.and 7#5 5#5 6#5) := by
  decide

/-! ### The decoded record (section 3.1) -/

theorem test_record_upperImmediate :
    decodeRecord 0x12345637#32 =
      some ⟨.loadUpperImm, some 0x12345000#32, 12#5, 8#5, 3#5, none, none, none⟩ ∧
    decodeRecord 0x00001297#32 =
      some ⟨.addUpperImmPC, some 0x00001000#32, 5#5, 0#5, 0#5, none, none, none⟩ := by
  decide

theorem test_record_jumps :
    decodeRecord 0x010000EF#32 =
      some ⟨.jumpAndLink, some 0x00000010#32, 1#5, 0#5, 16#5, none, none, none⟩ ∧
    decodeRecord 0x005300E7#32 =
      some ⟨.jumpAndLinkReg, some 0x00000005#32, 1#5, 6#5, 5#5, none, none, none⟩ := by
  decide

theorem test_record_branches :
    decodeRecord 0x00208463#32 =
      some ⟨.branchEQ, some 0x00000008#32, 8#5, 1#5, 2#5, none, none, none⟩ ∧
    decodeRecord 0xFE009CE3#32 =
      some ⟨.branchNE, some 0xFFFFFFF8#32, 25#5, 1#5, 0#5, none, none, none⟩ ∧
    decodeRecord 0x0020C663#32 =
      some ⟨.branchLT, some 0x0000000C#32, 12#5, 1#5, 2#5, none, none, none⟩ ∧
    decodeRecord 0xFE20DEE3#32 =
      some ⟨.branchGE, some 0xFFFFFFFC#32, 29#5, 1#5, 2#5, none, none, none⟩ ∧
    decodeRecord 0x7E20EFE3#32 =
      some ⟨.branchLTU, some 0x00000FFE#32, 31#5, 1#5, 2#5, none, none, none⟩ ∧
    decodeRecord 0x8020F063#32 =
      some ⟨.branchGEU, some 0xFFFFF000#32, 0#5, 1#5, 2#5, none, none, none⟩ := by
  decide

theorem test_record_loads :
    decodeRecord 0x00128383#32 =
      some ⟨.loadByte, some 0x00000001#32, 7#5, 5#5, 1#5, none, some .byte, some true⟩ ∧
    decodeRecord 0x00229483#32 =
      some ⟨.loadHalf, some 0x00000002#32, 9#5, 5#5, 2#5, none, some .half, some true⟩ ∧
    decodeRecord 0xFFC2A583#32 =
      some ⟨.loadWord, some 0xFFFFFFFC#32, 11#5, 5#5, 28#5, none, some .word, none⟩ ∧
    decodeRecord 0x0032C403#32 =
      some ⟨.loadByteU, some 0x00000003#32, 8#5, 5#5, 3#5, none, some .byte, some false⟩ ∧
    decodeRecord 0x0022D503#32 =
      some ⟨.loadHalfU, some 0x00000002#32, 10#5, 5#5, 2#5, none, some .half, some false⟩ := by
  decide

theorem test_record_stores :
    decodeRecord 0x006281A3#32 =
      some ⟨.storeByte, some 0x00000003#32, 3#5, 5#5, 6#5, none, some .byte, none⟩ ∧
    decodeRecord 0x00629123#32 =
      some ⟨.storeHalf, some 0x00000002#32, 2#5, 5#5, 6#5, none, some .half, none⟩ ∧
    decodeRecord 0xFE62AE23#32 =
      some ⟨.storeWord, some 0xFFFFFFFC#32, 28#5, 5#5, 6#5, none, some .word, none⟩ := by
  decide

theorem test_record_aluImmediate :
    decodeRecord 0xFFF28293#32 =
      some ⟨.addImm, some 0xFFFFFFFF#32, 5#5, 5#5, 31#5, none, none, none⟩ ∧
    decodeRecord 0xFFF2A313#32 =
      some ⟨.setLTImm, some 0xFFFFFFFF#32, 6#5, 5#5, 31#5, none, none, none⟩ ∧
    decodeRecord 0x0012B313#32 =
      some ⟨.setLTImmU, some 0x00000001#32, 6#5, 5#5, 1#5, none, none, none⟩ ∧
    decodeRecord 0xFFF2C313#32 =
      some ⟨.xorImm, some 0xFFFFFFFF#32, 6#5, 5#5, 31#5, none, none, none⟩ ∧
    decodeRecord 0x82386293#32 =
      some ⟨.orImm, some 0xFFFFF823#32, 5#5, 16#5, 3#5, none, none, none⟩ ∧
    decodeRecord 0x0FF2F313#32 =
      some ⟨.andImm, some 0x000000FF#32, 6#5, 5#5, 31#5, none, none, none⟩ ∧
    decodeRecord 0x01F29313#32 =
      some ⟨.shiftLeftImm, some 0x0000001F#32, 6#5, 5#5, 31#5, none, none, none⟩ ∧
    decodeRecord 0x0042D313#32 =
      some ⟨.shiftRightImm, some 0x00000004#32, 6#5, 5#5, 4#5, some .addShiftUnsigned, none, none⟩ ∧
    decodeRecord 0x4042D313#32 =
      some ⟨.shiftRightImm, some 0x00000404#32, 6#5, 5#5, 4#5, some .subShiftSigned, none, none⟩ := by
  decide

theorem test_record_aluRegister :
    decodeRecord 0x006283B3#32 =
      some ⟨.addOrSub, none, 7#5, 5#5, 6#5, some .addShiftUnsigned, none, none⟩ ∧
    decodeRecord 0x406283B3#32 =
      some ⟨.addOrSub, none, 7#5, 5#5, 6#5, some .subShiftSigned, none, none⟩ ∧
    decodeRecord 0x006293B3#32 =
      some ⟨.shiftLeft, none, 7#5, 5#5, 6#5, none, none, none⟩ ∧
    decodeRecord 0x0062A3B3#32 =
      some ⟨.setLT, none, 7#5, 5#5, 6#5, none, none, none⟩ ∧
    decodeRecord 0x0062B3B3#32 =
      some ⟨.setLTU, none, 7#5, 5#5, 6#5, none, none, none⟩ ∧
    decodeRecord 0x0062C3B3#32 =
      some ⟨.xor, none, 7#5, 5#5, 6#5, none, none, none⟩ ∧
    decodeRecord 0x0062D3B3#32 =
      some ⟨.shiftRight, none, 7#5, 5#5, 6#5, some .addShiftUnsigned, none, none⟩ ∧
    decodeRecord 0x4062D3B3#32 =
      some ⟨.shiftRight, none, 7#5, 5#5, 6#5, some .subShiftSigned, none, none⟩ ∧
    decodeRecord 0x0062E3B3#32 =
      some ⟨.or, none, 7#5, 5#5, 6#5, none, none, none⟩ ∧
    decodeRecord 0x0062F3B3#32 =
      some ⟨.and, none, 7#5, 5#5, 6#5, none, none, none⟩ := by
  decide

/-! ### Words that are Invalid, and near misses that are not (section 3.2) -/

theorem test_invalid_words :
    [0x00000000#32, 0xFFFFFFFF#32, 0x0FF0000F#32, 0x0000100F#32, 0x00000073#32, 0x00100073#32, 0x30200073#32,
     0x10500073#32, 0xC0002573#32, 0x34029073#32, 0x02628333#32, 0x0262C333#32, 0x1002A32F#32, 0x00002007#32,
     0x00003003#32, 0x00006003#32, 0x00007003#32, 0x00003023#32, 0x00004023#32, 0x00002063#32, 0x00003063#32,
     0x00001067#32, 0x0000001B#32, 0x40001013#32, 0x02001013#32, 0x02005013#32, 0x80005013#32, 0x40001033#32,
     0x40004033#32, 0x80000033#32, 0x00000001#32, 0x00008082#32, 0x0000000B#32].all (!recognised ·) = true := by
  decide

theorem test_near_misses_are_valid :
    [0x82386293#32, 0x40000013#32, 0x4000A013#32, 0xFFF04013#32, 0x41F2D313#32, 0x01F29313#32, 0x00000033#32,
     0x00000063#32, 0x00000003#32, 0x00000023#32, 0x00000067#32, 0x00000037#32, 0x00000017#32, 0xFFFFF06F#32,
     0xFFFFFFE3#32].all recognised = true := by
  decide

/-- Rejected by name: one word for each name (30_encoding R76; section 3.2). -/
theorem test_reject_names :
    decode 0x00000073#32 = .error .opcodeNotRecognised ∧ decode 0x00001067#32 = .error .jalrFunct3 ∧
    decode 0x00002063#32 = .error .branchFunct3 ∧ decode 0x00003003#32 = .error .loadFunct3 ∧
    decode 0x00003023#32 = .error .storeFunct3 ∧ decode 0x02001013#32 = .error .shiftImmediateFunct7 ∧
    decode 0x02628333#32 = .error .registerFunct7 ∧ decode 0x40001033#32 = .error .bit30WithoutVariant ∧
    decodeBytes [0x13#8, 0x00#8, 0x00#8] = .error .truncated := by
  decide

/-- The bytes of `addi x1, x0, 5` in the order of their addresses, and a byte after them (20_memory R41). -/
theorem test_decode_bytes :
    decodeBytes [0x93#8, 0x00#8, 0x50#8, 0x00#8, 0xAA#8] = .ok (.addi 1#5 0#5 0x00000005#32, [0xAA#8]) := by
  decide

theorem test_decodeTableWord :
    decodeTableWord 32 0x406283B3 = some (.sub 7#5 5#5 6#5) ∧ decodeTableWord 32 0x00000073 = none := by
  decide

/-! ### Single steps: upper immediates and jumps (sections 4.1, 4.2) -/

theorem test_lui : reg 0xFFFFF2B7#32 [] 5#5 = some (0x104#32, 0xFFFFF000#32) := by decide

theorem test_lui_x0 : reg 0x12345037#32 [] 0#5 = some (0x104#32, 0x00000000#32) := by decide

theorem test_auipc : reg 0xFFFFF297#32 [] 5#5 = some (0x104#32, 0xFFFFF100#32) := by decide

/-- The word is fetched from `M[0x100]`, the result uses the whole `pc`, and `pc` keeps its low bits. -/
theorem test_auipc_misaligned_pc :
    (answer (step (placed 0x102#32 0x00001297#32 [] []))).map (fun t => (t.pc, t.readReg 5#5)) =
      some (0x106#32, 0x00001102#32) := by decide

theorem test_jal : reg 0xF01FF0EF#32 [] 1#5 = some (0x000#32, 0x104#32) := by decide

theorem test_jal_wraps :
    (answer (step (placed 0x000#32 0xFFDFF0EF#32 [] []))).map (fun t => (t.pc, t.readReg 1#5)) =
      some (0xFFFFFFFC#32, 0x004#32) := by decide

/-- The destination is the base: the target is of the old value. -/
theorem test_jalr_same_register : reg 0x000080E7#32 [(1#5, 0x200#32)] 1#5 = some (0x200#32, 0x104#32) := by decide

theorem test_jalr_clears_bit_0 : reg 0x000302E7#32 [(6#5, 0xFFFFFFFF#32)] 5#5 = some (0xFFFFFFFE#32, 0x104#32) := by
  decide

/-! ### Single steps: branches (section 4.3). The third component of each row is an untouched register -/

theorem test_beq : reg 0x00208863#32 [(1#5, 5#32), (2#5, 5#32)] 16#5 = some (0x110#32, 0#32) ∧
    reg 0x00208863#32 [(1#5, 0x80000000#32), (2#5, 0x7FFFFFFF#32)] 16#5 = some (0x104#32, 0#32) := by decide

theorem test_bne : reg 0x00209863#32 [(1#5, 5#32), (2#5, 5#32)] 16#5 = some (0x104#32, 0#32) ∧
    reg 0x00209863#32 [(1#5, 0x80000000#32), (2#5, 0x7FFFFFFF#32)] 16#5 = some (0x110#32, 0#32) := by decide

theorem test_blt : reg 0x0020C863#32 [(1#5, 0x80000000#32), (2#5, 0x7FFFFFFF#32)] 16#5 = some (0x110#32, 0#32) ∧
    reg 0x0020C863#32 [(1#5, 5#32), (2#5, 5#32)] 16#5 = some (0x104#32, 0#32) := by decide

theorem test_bge : reg 0x0020D863#32 [(1#5, 0x80000000#32), (2#5, 0x7FFFFFFF#32)] 13#5 = some (0x104#32, 0#32) ∧
    reg 0x0020D863#32 [(1#5, 5#32), (2#5, 5#32)] 16#5 = some (0x110#32, 0#32) := by decide

theorem test_bltu : reg 0x0020E863#32 [(1#5, 0x80000000#32), (2#5, 0x7FFFFFFF#32)] 16#5 = some (0x104#32, 0#32) ∧
    reg 0x0020E863#32 [(1#5, 0x7FFFFFFF#32), (2#5, 0x80000000#32)] 16#5 = some (0x110#32, 0#32) := by decide

theorem test_bgeu : reg 0x0020F863#32 [(1#5, 0x80000000#32), (2#5, 0x7FFFFFFF#32)] 16#5 = some (0x110#32, 0#32) ∧
    reg 0x0020F863#32 [(1#5, 5#32), (2#5, 5#32)] 16#5 = some (0x110#32, 0#32) := by decide

/-- The largest backward and forward offsets. -/
theorem test_branch_extremes :
    reg 0x80000063#32 [] 1#5 = some (0xFFFFF100#32, 0#32) ∧
    reg 0x7E20DFE3#32 [(2#5, 0xFFFFFFFF#32)] 1#5 = some (0x000010FE#32, 0#32) := by decide

/-! ### Single steps: loads (section 4.4) -/

theorem test_lb : load 0x00228383#32 7#5 = some (0x104#32, 0xFFFFFFFF#32) ∧
    load 0x00328383#32 7#5 = some (0x104#32, 0xFFFFFF80#32) := by decide

theorem test_lbu : load 0x0012C383#32 7#5 = some (0x104#32, 0x0000007F#32) ∧
    load 0x0032C383#32 7#5 = some (0x104#32, 0x00000080#32) := by decide

theorem test_lh : load 0x00129383#32 7#5 = some (0x104#32, 0x00007F01#32) ∧
    load 0x00329383#32 7#5 = some (0x104#32, 0xFFFF80FF#32) := by decide

theorem test_lhu : load 0x0022D383#32 7#5 = some (0x104#32, 0x000080FF#32) ∧
    load 0x0032D383#32 7#5 = some (0x104#32, 0x000080FF#32) := by decide

theorem test_lw : load 0x0032A383#32 7#5 = some (0x104#32, 0x80FF7F01#32) ∧
    load 0x0072A383#32 7#5 = some (0x104#32, 0xA1B2C3D4#32) := by decide

theorem test_lw_base_and_x0 : load 0x0002A283#32 5#5 = some (0x104#32, 0x80FF7F01#32) ∧
    load 0x0002A003#32 0#5 = some (0x104#32, 0x00000000#32) := by decide

/-- Outside the window the load completes and one free value is used (section 4.4, second table; log 4). -/
theorem test_lw_outside_window :
    (answer (step (placed 0x100#32 0x0002A383#32 [(5#5, 0x400#32)] []))).map (fun t => (t.pc, t.draws)) =
      some (0x104#32, 1) := by decide

/-! ### Single steps: stores (section 4.5) -/

theorem test_sb : store 0x006280A3#32 0x200#32 = some (0x104#32, 0x1122DD44#32, []) ∧
    store 0x006281A3#32 0x200#32 = some (0x104#32, 0xDD223344#32, []) := by decide

theorem test_sh : store 0x006290A3#32 0x200#32 = some (0x104#32, 0x1122CCDD#32, []) ∧
    store 0x006291A3#32 0x200#32 = some (0x104#32, 0xCCDD3344#32, []) := by decide

theorem test_sw : store 0x0062A1A3#32 0x200#32 = some (0x104#32, 0xAABBCCDD#32, []) ∧
    store 0x0062A023#32 0x400#32 = some (0x104#32, 0x11223344#32, []) := by decide

/-- The port: lane 0 and the sentinel only. -/
theorem test_sb_port : store 0x00628023#32 0x10000000#32 = some (0x104#32, 0x11223344#32, [0xDD#8]) ∧
    store 0x006280A3#32 0x10000000#32 = some (0x104#32, 0x11223344#32, []) := by decide

theorem test_sh_port : store 0x006290A3#32 0x10000000#32 = some (0x104#32, 0x11223344#32, [0xDD#8]) ∧
    store 0x00629123#32 0x10000000#32 = some (0x104#32, 0x11223344#32, []) := by decide

theorem test_sw_port : store 0x0062A1A3#32 0x10000000#32 = some (0x104#32, 0x11223344#32, [0xDD#8]) ∧
    store 0xFE628FA3#32 0x10000000#32 = some (0x104#32, 0x11223344#32, []) := by decide

/-- The interface values of three rows (section 4.5, the paragraph after the first table). -/
theorem test_store_signals :
    ((placed 0x100#32 0x006280A3#32 (storeRegs 0x200#32) []).signals.dmemAddr,
      (placed 0x100#32 0x006280A3#32 (storeRegs 0x200#32) []).signals.dmemBe,
      (placed 0x100#32 0x006280A3#32 (storeRegs 0x200#32) []).signals.dmemWdata) =
        (some 0x200#32, 0b0010#4, some 0xDDDDDDDD#32) ∧
    ((placed 0x100#32 0x006291A3#32 (storeRegs 0x200#32) []).signals.dmemBe,
      (placed 0x100#32 0x006291A3#32 (storeRegs 0x200#32) []).signals.dmemWdata) =
        (0b1100#4, some 0xCCDDCCDD#32) ∧
    ((placed 0x100#32 0x0062A1A3#32 (storeRegs 0x200#32) []).signals.dmemBe,
      (placed 0x100#32 0x0062A1A3#32 (storeRegs 0x200#32) []).signals.dmemWdata) =
        (0b1111#4, some 0xAABBCCDD#32) := by decide

/-! ### Single steps: register-immediate (section 4.6) -/

theorem test_addi : reg 0x80028313#32 [(5#5, 0x80000000#32)] 6#5 = some (0x104#32, 0x7FFFF800#32) ∧
    reg 0x00128313#32 [(5#5, 0xFFFFFFFF#32)] 6#5 = some (0x104#32, 0x00000000#32) := by decide

theorem test_slti : reg 0xFFF2A313#32 [(5#5, 0x80000000#32)] 6#5 = some (0x104#32, 1#32) ∧
    reg 0xFFF2A313#32 [(5#5, 0xFFFFFFFF#32)] 6#5 = some (0x104#32, 0#32) := by decide

theorem test_sltiu : reg 0xFFF2B313#32 [(5#5, 0xFFFFFFFE#32)] 6#5 = some (0x104#32, 1#32) ∧
    reg 0xFFF2B313#32 [(5#5, 0xFFFFFFFF#32)] 6#5 = some (0x104#32, 0#32) := by decide

theorem test_xori : reg 0x5552C313#32 [(5#5, 0xFFFFFFFF#32)] 6#5 = some (0x104#32, 0xFFFFFAAA#32) := by decide

theorem test_ori : reg 0x82386293#32 [(16#5, 4#32)] 5#5 = some (0x104#32, 0xFFFFF827#32) := by decide

theorem test_andi : reg 0xFF02F313#32 [(5#5, 0x12345678#32)] 6#5 = some (0x104#32, 0x12345670#32) := by decide

theorem test_slli : reg 0x00129313#32 [(5#5, 0x80000001#32)] 6#5 = some (0x104#32, 0x00000002#32) ∧
    reg 0x01F29313#32 [(5#5, 0x80000001#32)] 6#5 = some (0x104#32, 0x80000000#32) := by decide

theorem test_srli : reg 0x01F2D313#32 [(5#5, 0x80000001#32)] 6#5 = some (0x104#32, 0x00000001#32) := by decide

theorem test_srai : reg 0x41F2D313#32 [(5#5, 0x80000001#32)] 6#5 = some (0x104#32, 0xFFFFFFFF#32) ∧
    reg 0x4042D313#32 [(5#5, 0x7FFFFFFF#32)] 6#5 = some (0x104#32, 0x07FFFFFF#32) := by decide

/-! ### Single steps: register-register (section 4.7) -/

theorem test_add : reg 0x006283B3#32 [(5#5, 0xFFFFFFFF#32), (6#5, 1#32)] 7#5 = some (0x104#32, 0#32) ∧
    reg 0x005282B3#32 [(5#5, 0x40000001#32)] 5#5 = some (0x104#32, 0x80000002#32) := by decide

theorem test_sub : reg 0x406283B3#32 [(5#5, 0#32), (6#5, 1#32)] 7#5 = some (0x104#32, 0xFFFFFFFF#32) := by decide

theorem test_sll : reg 0x006293B3#32 [(5#5, 0x12345678#32), (6#5, 0x104#32)] 7#5 = some (0x104#32, 0x23456780#32) ∧
    reg 0x006293B3#32 [(5#5, 1#32), (6#5, 0x20#32)] 7#5 = some (0x104#32, 1#32) := by decide

theorem test_slt : reg 0x0062A3B3#32 [(5#5, 0x80000000#32), (6#5, 0x7FFFFFFF#32)] 7#5 = some (0x104#32, 1#32) := by
  decide

theorem test_sltu : reg 0x0062B3B3#32 [(5#5, 0x80000000#32), (6#5, 0x7FFFFFFF#32)] 7#5 = some (0x104#32, 0#32) ∧
    reg 0x006033B3#32 [(6#5, 0x80000000#32)] 7#5 = some (0x104#32, 1#32) := by decide

theorem test_xor : reg 0x0062C3B3#32 [(5#5, 0xFF00FF00#32), (6#5, 0x0FF00FF0#32)] 7#5 =
    some (0x104#32, 0xF0F0F0F0#32) := by decide

theorem test_srl : reg 0x0062D3B3#32 [(5#5, 0x80000000#32), (6#5, 0xFFFFFFE4#32)] 7#5 =
    some (0x104#32, 0x08000000#32) := by decide

theorem test_sra : reg 0x4062D3B3#32 [(5#5, 0x80000000#32), (6#5, 0xFFFFFFE4#32)] 7#5 =
    some (0x104#32, 0xF8000000#32) := by decide

theorem test_or : reg 0x0062E3B3#32 [(5#5, 0xFF00FF00#32), (6#5, 0x0FF00FF0#32)] 7#5 =
    some (0x104#32, 0xFFF0FFF0#32) := by decide

theorem test_and : reg 0x0062F3B3#32 [(5#5, 0xFF00FF00#32), (6#5, 0x0FF00FF0#32)] 7#5 =
    some (0x104#32, 0x0F000F00#32) := by decide

/-! ### Invalid, and the refusal -/

/-- `ecall` stalls, and so does `mul` at a misaligned `pc` (section 4.8). -/
theorem test_invalid_stalls :
    answer (step (placed 0x100#32 0x00000073#32 [] [])) = some (placed 0x100#32 0x00000073#32 [] []) ∧
    answer (step (placed 0x102#32 0x02628333#32 [] [])) = some (placed 0x102#32 0x02628333#32 [] []) := by decide

/-- A build whose sentinel lies in the window breaks 00_scope R5. -/
theorem test_illegal_build_is_refused :
    step { State.reset with cfg := { resetConfig with outAddr := 0x00000200#32 } } = .refused .illegalBuild := by
  rfl

/-- Right after reset the placed word is the one that runs (log 9): `addi x1, x0, 5` (section 1.1, S5). -/
theorem test_withFetchWord_runs_after_reset :
    (answer (step (State.reset.withFetchWord 32 0x00500093))).map (fun t => (t.pc, t.readReg 1#5)) =
      some (0x004#32, 0x00000005#32) := by decide

/-! ### Witnesses: for each statement with hypotheses, a state and operands that meet them all, and for a statement of
several clauses one for each clause, at a boundary of its range where it has one -/

/-- Two builds that differ from T0: the window at the top of the address space, and the smallest one. -/
def highBuild : Config := ⟨0xFFFFF000#32, 0xFFFFFFFC#32, 0xFFFFFFFC#32, 0xFFFFF000#32⟩
def smallBuild : Config := ⟨0x00000000#32, 0x00000004#32, 0x00000004#32, 0x00000001#32⟩

theorem witness_legal_builds :
    legalBuild resetConfig = true ∧ legalBuild highBuild = true ∧ legalBuild smallBuild = true := by decide

theorem witness_DecodeInvertsEncode :
    Instr.wellFormed (.beq 1#5 2#5 0xFFFFF000#32) = true ∧ Instr.wellFormed (.jal 1#5 0x000FFFFE#32) = true ∧
    Instr.wellFormed (.lui 31#5 0xFFFFF000#32) = true ∧ Instr.wellFormed (.sw 4#5 3#5 0xFFFFF800#32) = true ∧
    Instr.wellFormed (.srai 6#5 5#5 31#5) = true := by decide

theorem witness_EncodeInvertsDecode :
    decode 0xFFFFFFE3#32 = .ok (.bgeu 31#5 31#5 0xFFFFFFFE#32) ∧
    decode 0xFFFFF06F#32 = .ok (.jal 0#5 0xFFFFFFFE#32) := by decide

theorem witness_ImmediatesAreTheirBits :
    (31 : Nat) < 32 ∧ fitsImm12 0xFFFFF800#32 = true ∧ fitsImm12 0x000007FF#32 = true ∧
    fitsImmB 0xFFFFF000#32 = true ∧ fitsImmB 0x00000FFE#32 = true ∧ fitsImmU 0xFFFFF000#32 = true ∧
    fitsImmJ 0xFFF00000#32 = true ∧ fitsImmJ 0x000FFFFE#32 = true := by decide

/-- One word of each class of the Invalid space, in the order of the statement, and a recognised word. -/
theorem witness_InvalidSpaceEnumerated :
    [0x00000073#32, 0x00007067#32, 0x00002063#32, 0x00003003#32, 0x00003023#32, 0x40001013#32, 0x02005013#32,
     0x80000033#32, 0x40001033#32].all (!recognised ·) = true ∧ recognised 0x40005033#32 = true := by decide

/-- (a) bit 31 and bit 25, (b) without and with bit 30, (c) an ADDI with all of funct7 set. -/
theorem witness_Funct7IsMatchedStrictly :
    (opcode 0x80000033#32 = 0b0110011#7 ∧ (0x80000033#32).getLsbD 31 = true) ∧
    (opcode 0x02001013#32 = 0b0010011#7 ∧ funct3 0x02001013#32 = 0b001#3 ∧
      (0x02001013#32).extractLsb' 25 5 ≠ 0b00000#5) ∧
    (opcode 0x00000033#32 = 0b0110011#7 ∧ (0x00000033#32).getLsbD 31 = false ∧
      (0x00000033#32).extractLsb' 25 5 = 0b00000#5 ∧ (0x00000033#32).getLsbD 30 = false) ∧
    (opcode 0x40001033#32 = 0b0110011#7 ∧ (0x40001033#32).getLsbD 31 = false ∧
      (0x40001033#32).extractLsb' 25 5 = 0b00000#5 ∧ (0x40001033#32).getLsbD 30 = true) ∧
    (opcode 0xFE000013#32 = 0b0010011#7 ∧ funct3 0xFE000013#32 = 0b000#3) := by decide

theorem witness_AbsentInstructionsHaltInPlace :
    opcode 0x0FF0000F#32 = 0b0001111#7 ∧ opcode 0x00000073#32 = 0b1110011#7 ∧
    (0x00008082#32).extractLsb' 0 2 ≠ 0b11#2 := by decide

/-- The hypothesis of every encoding clause of the result statements: a row's pattern is a word of the row. -/
theorem witness_EncodedBy : opcodeTable.all (fun r => r.pattern &&& r.mask == r.pattern) = true := by decide

theorem witness_JumpResults : opcode 0x00001067#32 = 0b1100111#7 ∧ funct3 0x00001067#32 ≠ 0b000#3 := by decide

/-- An SLLI with bit 30 set, and a word of the SRAI row. -/
theorem witness_ImmediateShiftResults :
    (opcode 0x40001013#32 = 0b0010011#7 ∧ funct3 0x40001013#32 = 0b001#3 ∧ funct7 0x40001013#32 ≠ 0b0000000#7) ∧
    0x41F2D313#32 &&& 0xFE00707F#32 = 0x40005013#32 := by decide

/-- Effective addresses in the window, at its last byte, outside it and at the sentinel. -/
theorem witness_loads_and_stores :
    legalBuild (placed 0x100#32 0x00028383#32 [(5#5, 0x3FF#32)] []).cfg = true ∧
    inWindow (placed 0x100#32 0x00028383#32 [(5#5, 0x3FF#32)] []).cfg
      (wordAlign ((placed 0x100#32 0x00028383#32 [(5#5, 0x3FF#32)] []).readReg 5#5 + 0#32)) = true ∧
    inWindow (placed 0x100#32 0x00028383#32 [(5#5, 0x400#32)] []).cfg
      (wordAlign ((placed 0x100#32 0x00028383#32 [(5#5, 0x400#32)] []).readReg 5#5 + 0#32)) = false ∧
    wordAlign ((placed 0x100#32 0x00028383#32 [(5#5, 0x10000003#32)] []).readReg 5#5 + 0#32) =
      (placed 0x100#32 0x00028383#32 [(5#5, 0x10000003#32)] []).cfg.outAddr := by decide

/-- A load, a store and an instruction that is neither. -/
theorem witness_EveryInstructionsFrame :
    (∃ t, exec (.lw 7#5 5#5 0#32) State.reset = .next t) ∧ (∃ t, exec (.sh 5#5 6#5 2#32) State.reset = .next t) ∧
    (∃ t, exec (.add 7#5 5#5 6#5) State.reset = .next t) := ⟨⟨_, rfl⟩, ⟨_, rfl⟩, ⟨_, rfl⟩⟩

/-- A store that emits, and one that does not. -/
theorem witness_OutputPortFollowsItsTable :
    legalBuild (placed 0x100#32 0x0062A1A3#32 (storeRegs 0x10000000#32) []).cfg = true ∧
    (∃ t, exec (.sw 5#5 6#5 3#32) (placed 0x100#32 0x0062A1A3#32 (storeRegs 0x10000000#32) []) = .next t) ∧
    portByte (placed 0x100#32 0x0062A1A3#32 (storeRegs 0x10000000#32) []) (.sw 5#5 6#5 3#32) = some 0xDD#8 ∧
    portByte (placed 0x100#32 0x0062A1A3#32 (storeRegs 0x10000000#32) []) (.sb 5#5 6#5 3#32) = none :=
  ⟨by decide, ⟨_, rfl⟩, by decide, by decide⟩

/-- The sentinel, the last word of the window, the word after it. -/
theorem witness_WordWriteUnderEnables :
    legalBuild State.reset.cfg = true ∧ (0x10000000#32).toNat % 4 = 0 ∧ 0x10000000#32 = State.reset.cfg.outAddr ∧
    (0x3FC#32).toNat % 4 = 0 ∧ 0x3FC#32 ≠ State.reset.cfg.outAddr ∧ inWindow State.reset.cfg 0x3FC#32 = true ∧
    (0x400#32).toNat % 4 = 0 ∧ 0x400#32 ≠ State.reset.cfg.outAddr ∧ inWindow State.reset.cfg 0x400#32 = false := by
  decide

theorem witness_LanesAreLittleEndian :
    legalBuild State.reset.cfg = true ∧ inWindow State.reset.cfg 0x3FC#32 = true ∧ (0x3FC#32).toNat % 4 = 0 ∧
    (3 : Nat) < 4 ∧ (1 : Nat) < 2 := by decide

theorem witness_StoreThenLoadRoundTrip :
    legalBuild (placed 0x100#32 0x00028383#32 [(5#5, 0x3FF#32)] []).cfg = true ∧
    inWindow (placed 0x100#32 0x00028383#32 [(5#5, 0x3FF#32)] []).cfg
      ((placed 0x100#32 0x00028383#32 [(5#5, 0x3FF#32)] []).readReg 5#5 + 0#32) = true ∧
    (7#5 : RegIdx) ≠ 0#5 := by decide

/-- `sw` to the word after `pc`, at a misaligned address. -/
theorem witness_StoreIsSeenByTheNextFetch :
    legalBuild (placed 0x100#32 0x0062A023#32 (storeRegs 0x106#32) []).cfg = true ∧
    inWindow (placed 0x100#32 0x0062A023#32 (storeRegs 0x106#32) []).cfg
      ((placed 0x100#32 0x0062A023#32 (storeRegs 0x106#32) []).pc + 4#32) = true ∧
    wordAlign ((placed 0x100#32 0x0062A023#32 (storeRegs 0x106#32) []).readReg 5#5 + 0#32) =
      wordAlign ((placed 0x100#32 0x0062A023#32 (storeRegs 0x106#32) []).pc + 4#32) := by decide

theorem witness_CanonicalMemoriesAreDetermined : Memory.wf [(0, 1#8), (5, 0xFF#8)] = true := by decide

/-- An address just above the window of T0, one just below another build's window, and a `pc` outside. -/
theorem witness_OutOfWindowReadsAreFree :
    inWindow State.reset.cfg 0x400#32 = false ∧ inWindow highBuild 0xFFFFEFFF#32 = false ∧
    legalBuild (State.reset.setPc 0xFFFFFFFC#32).cfg = true ∧
    inWindow (State.reset.setPc 0xFFFFFFFC#32).cfg (State.reset.setPc 0xFFFFFFFC#32).pc = false := by decide

/-- A recognised word, an Invalid word, and a `pc` in the window. -/
theorem witness_StepRunsTheDecodedInstruction :
    legalBuild (placed 0x102#32 0x00500093#32 [] []).cfg = true ∧
    decode (placed 0x102#32 0x00500093#32 [] []).fetchWord = .ok (.addi 1#5 0#5 5#32) ∧
    inWindow (placed 0x102#32 0x00500093#32 [] []).cfg (placed 0x102#32 0x00500093#32 [] []).pc = true ∧
    decode (placed 0x102#32 0x00000073#32 [] []).fetchWord = .error .opcodeNotRecognised := by decide

theorem witness_OnlyIllegalBuildsAreRefused :
    legalBuild { resetConfig with outAddr := 0x00000200#32 } = false ∧
    legalBuild { resetConfig with memEnd := 0x00000000#32 } = false ∧
    legalBuild { resetConfig with memBase := 0x00000002#32 } = false := by decide

/-- A word that matches no row; the reset state is halted; and a state with `pc` outside the window. -/
theorem witness_InvalidStallIsAFixedPoint :
    (∀ r ∈ opcodeTable, r.matchesWord 0x00000073#32 = false) ∧
    legalBuild State.reset.cfg = true ∧ State.reset.halted = true ∧
    inWindow (State.reset.setPc 0x400#32).cfg (State.reset.setPc 0x400#32).pc = false := by decide

/-- A state with stored bytes meets the invariant and steps. -/
theorem witness_StepKeepsTheInvariant :
    (placed 0x100#32 0x0062A023#32 (storeRegs 0x3FC#32) []).Inv ∧
    (step (placed 0x100#32 0x0062A023#32 (storeRegs 0x3FC#32) []) matches .next _) = true :=
  ⟨⟨by decide, by decide, by decide⟩, by decide⟩

theorem witness_InitialStates :
    imageFits smallBuild [0x00500093#32] = true ∧
    imageFits ⟨0xFFFFFFF8#32, 0xFFFFFFFC#32, 0x00000000#32, 0x00000000#32⟩ [0x00500093#32] = true ∧
    (30 : Nat) < 31 ∧ (0 : Nat) < [0x00500093#32].length := by decide

/-- A step, for the statements about every step that answers: a store to the sentinel. -/
theorem witness_StepEmitsAtMostOneByte :
    (step (placed 0x100#32 0x00628023#32 (storeRegs 0x10000000#32) []) matches .next _) = true := by decide

/-- A step that ends with an odd `pc`, and a run of one step from a build whose `RESET_PC` is odd. -/
theorem witness_OddPcOnlyFromOddResetPc :
    ((answer (step (placed 0x101#32 0x00500093#32 [] []))).map (·.pc.getLsbD 0) = some true) ∧
    ((answer (Sys2Proof.core.run 1 (initialState smallBuild [0x00500093#32] (Vector.replicate 31 0#32)))).map
      (·.pc.getLsbD 0) = some true) := by decide

/-- A disciplined load that steps. -/
theorem witness_FreeValuesDoNotReachDisciplinedSteps :
    (placed 0x100#32 0x0002A383#32 [(5#5, 0x3FF#32)] []).disciplined = true ∧
    (step (placed 0x100#32 0x0002A383#32 [(5#5, 0x3FF#32)] []) matches .next _) = true := by decide

theorem witness_PlacedWordIsRunNext : (0xFFFFFFFF : Nat) < 2 ^ 32 := by decide

end Sys2Proof.Tests
end

section
/-! PROOFS. The two decoders agree (spec/30_encoding.md section 3): the word of a decoded instruction is in that
instruction's row of the opcode map and carries its operands, no word is in two rows, and a word in a row is decoded. -/

namespace Sys2Proof

/-- The instruction's row of the opcode map: the constructors stand in the order of the table (R74, R80). -/
def Instr.row (i : Instr) : OpcodeRow := opcodeTable[i.ctorIdx]'(by cases i <;> exact of_decide_eq_true rfl)

theorem row_mem (i : Instr) : i.row ∈ opcodeTable := List.getElem_mem _

/-- The row is the one that bears the instruction's mnemonic. -/
theorem row_mnemonic (i : Instr) : i.row.mnemonic = Laws.mnemonic i := by
  cases i <;> rfl

/-- The operands are what the fields of the word say (R61, R62 to R66). -/
def Instr.carriedBy (iw : Word) : Instr → Prop
  | .lui rd imm | .auipc rd imm => rd = rdField iw ∧ imm = immU iw
  | .jal rd imm => rd = rdField iw ∧ imm = immJ iw
  | .beq rs1 rs2 imm | .bne rs1 rs2 imm | .blt rs1 rs2 imm | .bge rs1 rs2 imm | .bltu rs1 rs2 imm
  | .bgeu rs1 rs2 imm => rs1 = rs1Field iw ∧ rs2 = rs2Field iw ∧ imm = immB iw
  | .sb rs1 rs2 imm | .sh rs1 rs2 imm | .sw rs1 rs2 imm =>
    rs1 = rs1Field iw ∧ rs2 = rs2Field iw ∧ imm = immS iw
  | .jalr rd rs1 imm | .lb rd rs1 imm | .lh rd rs1 imm | .lw rd rs1 imm | .lbu rd rs1 imm | .lhu rd rs1 imm
  | .addi rd rs1 imm | .slti rd rs1 imm | .sltiu rd rs1 imm | .xori rd rs1 imm | .ori rd rs1 imm
  | .andi rd rs1 imm => rd = rdField iw ∧ rs1 = rs1Field iw ∧ imm = immI iw
  | .slli rd rs1 shamt | .srli rd rs1 shamt | .srai rd rs1 shamt =>
    rd = rdField iw ∧ rs1 = rs1Field iw ∧ shamt = rs2Field iw
  | .add rd rs1 rs2 | .sub rd rs1 rs2 | .sll rd rs1 rs2 | .slt rd rs1 rs2 | .sltu rd rs1 rs2
  | .xor rd rs1 rs2 | .srl rd rs1 rs2 | .sra rd rs1 rs2 | .or rd rs1 rs2 | .and rd rs1 rs2 =>
    rd = rdField iw ∧ rs1 = rs1Field iw ∧ rs2 = rs2Field iw

/-- The word is one of the instruction's encodings: it is in the instruction's row and carries its operands. -/
def Instr.encodedBy (iw : Word) (i : Instr) : Prop := i.row.matchesWord iw = true ∧ i.carriedBy iw

/-- A test of the opcode alone. -/
theorem matchesWord_of_opcode {r : OpcodeRow} {iw : Word} {op : BitVec 7} (hop : opcode iw = op)
    (hr : r.mask = 0x0000007F#32 ∧ r.pattern = packWord 0 0 0 0 0 op) : r.matchesWord iw = true := by
  simp [OpcodeRow.matchesWord, hr, (matches_opcode iw op).mpr hop]

/-- A test of the opcode and funct3. -/
theorem matchesWord_of_funct3 {r : OpcodeRow} {iw : Word} {op : BitVec 7} {f3 : BitVec 3} (hop : opcode iw = op)
    (h3 : funct3 iw = f3) (hr : r.mask = 0x0000707F#32 ∧ r.pattern = packWord 0 0 0 f3 0 op) :
    r.matchesWord iw = true := by
  simp [OpcodeRow.matchesWord, hr, (matches_funct3 iw f3 op).mpr ⟨h3, hop⟩]

/-- A test of the opcode, funct3 and funct7. -/
theorem matchesWord_of_funct7 {r : OpcodeRow} {iw : Word} {op : BitVec 7} {f3 : BitVec 3} {f7 : BitVec 7}
    (hop : opcode iw = op) (h3 : funct3 iw = f3) (h7 : funct7 iw = f7)
    (hr : r.mask = 0xFE00707F#32 ∧ r.pattern = packWord f7 0 0 f3 0 op) : r.matchesWord iw = true := by
  simp [OpcodeRow.matchesWord, hr, (matches_funct7 iw f7 f3 op).mpr ⟨h7, h3, hop⟩]

/-! ### Each part of the decoder answers an instruction that the word encodes

The two ALU parts end in the one value of funct3 that their tests have not named. -/

theorem decodeBranch_ok {iw : Word} {i : Instr} (hop : opcode iw = 0b1100011#7) (h : decodeBranch iw = .ok i) :
    i.encodedBy iw := by
  unfold decodeBranch at h
  repeat' split at h
  all_goals cases h
  all_goals exact ⟨matchesWord_of_funct3 hop ‹_› ⟨rfl, rfl⟩, rfl, rfl, rfl⟩

theorem decodeLoad_ok {iw : Word} {i : Instr} (hop : opcode iw = 0b0000011#7) (h : decodeLoad iw = .ok i) :
    i.encodedBy iw := by
  unfold decodeLoad at h
  repeat' split at h
  all_goals cases h
  all_goals exact ⟨matchesWord_of_funct3 hop ‹_› ⟨rfl, rfl⟩, rfl, rfl, rfl⟩

theorem decodeStore_ok {iw : Word} {i : Instr} (hop : opcode iw = 0b0100011#7) (h : decodeStore iw = .ok i) :
    i.encodedBy iw := by
  unfold decodeStore at h
  repeat' split at h
  all_goals cases h
  all_goals exact ⟨matchesWord_of_funct3 hop ‹_› ⟨rfl, rfl⟩, rfl, rfl, rfl⟩

theorem decodeAluImmediate_ok {iw : Word} {i : Instr} (hop : opcode iw = 0b0010011#7)
    (h : decodeAluImmediate iw = .ok i) : i.encodedBy iw := by
  unfold decodeAluImmediate at h
  repeat' split at h
  all_goals cases h
  iterate 6 exact ⟨matchesWord_of_funct3 hop ‹_› ⟨rfl, rfl⟩, rfl, rfl, rfl⟩
  · exact ⟨matchesWord_of_funct7 hop ‹_› ‹_› ⟨rfl, rfl⟩, rfl, rfl, rfl⟩
  all_goals
    have h5 : funct3 iw = 0b101#3 := by bv_omega
    exact ⟨matchesWord_of_funct7 hop h5 ‹_› ⟨rfl, rfl⟩, rfl, rfl, rfl⟩

theorem decodeAluRegister_ok {iw : Word} {i : Instr} (hop : opcode iw = 0b0110011#7)
    (h : decodeAluRegister iw = .ok i) : i.encodedBy iw := by
  have h7 : funct3 iw ≠ 0b000#3 → funct3 iw ≠ 0b001#3 → funct3 iw ≠ 0b010#3 → funct3 iw ≠ 0b011#3 →
      funct3 iw ≠ 0b100#3 → funct3 iw ≠ 0b101#3 → funct3 iw ≠ 0b110#3 → funct3 iw = 0b111#3 := by
    bv_omega
  unfold decodeAluRegister at h
  repeat' split at h
  all_goals cases h
  iterate 7 exact ⟨matchesWord_of_funct7 hop ‹_› ‹_› ⟨rfl, rfl⟩, rfl, rfl, rfl⟩
  · exact ⟨matchesWord_of_funct7 hop (h7 ‹_› ‹_› ‹_› ‹_› ‹_› ‹_› ‹_›) ‹_› ⟨rfl, rfl⟩, rfl, rfl, rfl⟩
  all_goals exact ⟨matchesWord_of_funct7 hop ‹_› ‹_› ⟨rfl, rfl⟩, rfl, rfl, rfl⟩

/-- An instruction the decoder answers is the one whose row the word is in, with the operands the word carries. -/
theorem decode_ok {iw : Word} {i : Instr} (h : decode iw = .ok i) : i.encodedBy iw := by
  unfold decode at h
  split at h
  · cases h; exact ⟨matchesWord_of_opcode ‹_› ⟨rfl, rfl⟩, rfl, rfl⟩
  split at h
  · cases h; exact ⟨matchesWord_of_opcode ‹_› ⟨rfl, rfl⟩, rfl, rfl⟩
  split at h
  · cases h; exact ⟨matchesWord_of_opcode ‹_› ⟨rfl, rfl⟩, rfl, rfl⟩
  split at h
  · split at h
    · cases h; exact ⟨matchesWord_of_funct3 ‹_› ‹_› ⟨rfl, rfl⟩, rfl, rfl, rfl⟩
    · cases h
  split at h
  · exact decodeBranch_ok ‹_› h
  split at h
  · exact decodeLoad_ok ‹_› h
  split at h
  · exact decodeStore_ok ‹_› h
  split at h
  · exact decodeAluImmediate_ok ‹_› h
  split at h
  · exact decodeAluRegister_ok ‹_› h
  · cases h

/-! ### Rows and Invalid words -/

/-- No word is in two rows (R74): two different rows disagree on a bit that both test. -/
theorem row_unique {iw : Word} {r r' : OpcodeRow} (hr : r ∈ opcodeTable) (hr' : r' ∈ opcodeTable)
    (h : r.matchesWord iw = true) (h' : r'.matchesWord iw = true) : r = r' := by
  have hdisjoint : ∀ r ∈ opcodeTable, ∀ r' ∈ opcodeTable,
      r.pattern &&& r'.mask = r'.pattern &&& r.mask → r = r' := by decide
  apply hdisjoint r hr r' hr'
  simp only [OpcodeRow.matchesWord, beq_iff_eq] at h h'
  rw [← h, ← h', BitVec.and_assoc, BitVec.and_assoc, BitVec.and_comm r.mask]

/-- The columns a matching word shares with its row's pattern: those under the row's mask. -/
theorem columns_of_match {iw : Word} {r : OpcodeRow} (hr : r ∈ opcodeTable) (h : r.matchesWord iw = true) :
    opcode iw = r.pattern.extractLsb' 0 7 ∧ (r.mask.getLsbD 12 = true → funct3 iw = r.pattern.extractLsb' 12 3) ∧
      (r.mask.getLsbD 25 = true → funct7 iw = r.pattern.extractLsb' 25 7) := by
  have hmasks : ∀ r ∈ opcodeTable,
      r.mask = 0x0000007F#32 ∨ r.mask = 0x0000707F#32 ∨ r.mask = 0xFE00707F#32 := by decide
  simp only [OpcodeRow.matchesWord, beq_iff_eq] at h
  rcases hmasks r hr with hm | hm | hm <;> rw [hm] at h ⊢
  · exact ⟨columns_of_match_opcode h, by simp, by simp⟩
  · obtain ⟨h3, hop⟩ := columns_of_match_funct3 h
    exact ⟨hop, fun _ => h3, by simp⟩
  · obtain ⟨h7, h3, hop⟩ := columns_of_match_funct7 h
    exact ⟨hop, fun _ => h3, fun _ => h7⟩

/-- A word in a row is recognised: row by row, the tests of `decode` on its columns succeed. -/
theorem recognised_of_match {iw : Word} {r : OpcodeRow} (hr : r ∈ opcodeTable) (h : r.matchesWord iw = true) :
    recognised iw = true := by
  obtain ⟨hop, h3, h7⟩ := columns_of_match hr h
  fin_cases hr <;>
    simp [recognised, decode, decodeBranch, decodeLoad, decodeStore, decodeAluImmediate, decodeAluRegister, hop, h3,
      h7, Except.isOk, Except.toBool]

/-! ### The decoded record -/

/-- The record the decoder gives for a word of a row (R68). -/
def OpcodeRow.record (row : OpcodeRow) (iw : Word) : DecodedRecord :=
  { operation := row.operation
    immediate := immediateOf iw row.format
    rd := rdField iw
    rs1 := rs1Field iw
    rs2 := rs2Field iw
    arithmeticVariant := variantOf iw row.operation
    loadStoreWidth := widthOf row.operation
    loadIsSigned := signedOf row.operation }

/-- The record of a recognised word is the one of its instruction's row. -/
theorem decodeRecord_of_ok {iw : Word} {i : Instr} (h : decode iw = .ok i) :
    decodeRecord iw = some (i.row.record iw) := by
  obtain ⟨hmatch, -⟩ := decode_ok h
  have hfind : opcodeTable.find? (·.matchesWord iw) = some i.row := by
    cases hf : opcodeTable.find? (·.matchesWord iw) with
    | none => exact absurd hmatch (List.find?_eq_none.mp hf _ (row_mem i))
    | some r =>
      have hr : r.matchesWord iw = true := by simpa using List.find?_some hf
      rw [row_unique (List.mem_of_find?_eq_some hf) (row_mem i) hr hmatch]
  rw [decodeRecord, hfind]
  rfl

/-- An Invalid word has no record (R73). -/
theorem decodeRecord_of_error {iw : Word} {e : Reject} (h : decode iw = .error e) : decodeRecord iw = none := by
  have hfind : opcodeTable.find? (·.matchesWord iw) = none := by
    rw [List.find?_eq_none]
    intro r hr hmatch
    have hrec := recognised_of_match hr hmatch
    simp [recognised, h, Except.isOk, Except.toBool] at hrec
  rw [decodeRecord, hfind]
  rfl

end Sys2Proof
end

section
/-! PROOFS. Register 0 (O25) and the initial state of a build (O42). -/

namespace Sys2Proof.Machine

/-- Settles O25: reading and writing register 0 are the two special cases of the register file. -/
theorem registerZeroIsImmutable : Obligations.RegisterZeroIsImmutable := by
  intro s v
  exact ⟨readReg_zero s, writeReg_zero s v, readReg_zero _⟩

/-- Register `i + 1` stands in entry `i` of the register file (10_state R11). -/
theorem readReg_succ (s : State) {i : Nat} (h : i < 31) :
    s.readReg (BitVec.ofNat 5 (i + 1)) = s.regs[i] := by
  have hi : (BitVec.ofNat 5 (i + 1)).toNat = i + 1 := by
    rw [BitVec.toNat_ofNat]; omega
  have hne : BitVec.ofNat 5 (i + 1) ≠ 0#5 := fun e => by simp [e] at hi
  simp [State.readReg, hne, hi]

/-! ### The image in memory (10_state R25) -/

/-- A word read depends on the four bytes at its address alone. -/
theorem readWord_congr {m m' : Memory} {a : Nat}
    (h : ∀ n, n < a + 4 → Memory.readByte m' n = Memory.readByte m n) :
    Memory.readWord m' a = Memory.readWord m a := by
  unfold Memory.readWord
  rw [h a (by omega), h (a + 1) (by omega), h (a + 2) (by omega), h (a + 3) (by omega)]

/-- Placing words from index `k` on changes no byte before `M[k]`. -/
theorem readByte_placeFrom_below (c : Config) (image : List Word) {m : Memory} {k n : Nat}
    (hn : n < wordBase c k) :
    Memory.readByte (Memory.placeFrom c m k image) n = Memory.readByte m n := by
  induction image generalizing m k with
  | nil => rfl
  | cons w rest ih =>
    have hlow : ¬ wordBase c k ≤ n := by omega
    have hnext : n < wordBase c (k + 1) := by unfold wordBase at *; omega
    rw [Memory.placeFrom, ih hnext, readByte_writeLanes]
    simp [hlow]

/-- Word `i` of an image placed from index `k` on is `M[k + i]`. -/
theorem readWord_placeFrom (c : Config) (image : List Word) (m : Memory) (k : Nat) {i : Nat}
    (h : i < image.length) :
    Memory.readWord (Memory.placeFrom c m k image) (wordBase c (k + i)) = image[i] := by
  induction image generalizing m k i with
  | nil => simp at h
  | cons w rest ih =>
    cases i with
    | zero =>
      have hfirst : wordBase c k + 4 = wordBase c (k + 1) := by unfold wordBase; omega
      calc Memory.readWord (Memory.placeFrom c m k (w :: rest)) (wordBase c k)
          = Memory.readWord (Memory.writeLanes m (wordBase c k) 0b1111#4 w) (wordBase c k) :=
            readWord_congr fun n hn => readByte_placeFrom_below c rest (by omega)
        _ = w := readWord_writeLanes_self ..
    | succ j =>
      have hj := ih (Memory.writeLanes m (wordBase c k) 0b1111#4 w) (k + 1) (Nat.lt_of_succ_lt_succ h)
      rwa [Nat.add_assoc, Nat.add_comm 1 j] at hj

/-- In a build the image fits, the byte address of word `k` of the image is in the window, and it is the address of
`M[k]` (20_memory R33, R34). -/
theorem imageFits_address {c : Config} {image : List Word} (hfit : imageFits c image = true) {k : Nat}
    (hk : k < image.length) :
    inWindow c (c.memBase + BitVec.ofNat 32 (4 * k)) = true ∧
      wordKey c (c.memBase + BitVec.ofNat 32 (4 * k)) = wordBase c k := by
  obtain ⟨-, hend⟩ : legalBuild c = true ∧ c.memEnd.toNat = c.memBase.toNat + 4 * image.length := by
    simpa [imageFits] using hfit
  have hlt := c.memEnd.isLt
  have haddr : (c.memBase + BitVec.ofNat 32 (4 * k)).toNat = c.memBase.toNat + 4 * k := by
    rw [BitVec.toNat_add, BitVec.toNat_ofNat]; omega
  refine ⟨(inWindow_iff _ _).mpr (by omega), ?_⟩
  unfold wordKey wordIndex
  rw [haddr]
  congr 1
  omega

/-- Settles O42: `pc`, the registers and the port are fields of the initial state; the image is read back word by word
from where it was placed. -/
theorem initialStateOfABuild : Obligations.InitialStateOfABuild := by
  intro c image regInit hfit
  refine ⟨rfl, readReg_zero _, fun i h => readReg_succ _ h, fun k hk => ?_, rfl⟩
  obtain ⟨hwin, hkey⟩ := imageFits_address hfit hk
  have hword := readWord_placeFrom c image [] 0 hk
  rw [Nat.zero_add] at hword
  simp only [State.readWord, State.wordAt, initialState, hwin, hkey, if_true]
  exact hword

end Sys2Proof.Machine
end

section
/-! PROOFS. What a run keeps, and bit 0 of `pc` (O45). -/

namespace Sys2Proof.Machine

/-! ### Runs -/

/-- What every step keeps, every run keeps. -/
theorem run_keeps {P : State → Prop} (hstep : ∀ s t, step s = .next t → P s → P t) {k : Nat} {s t : State}
    (hrun : Sys2Proof.core.run k s = .next t) (hs : P s) : P t := by
  induction k generalizing s with
  | zero => cases hrun; exact hs
  | succ k ih =>
    simp only [Host.Core.run] at hrun
    split at hrun
    · rename_i s' hs'
      exact ih hrun (hstep s s' hs' hs)
    · cases hrun
    · cases hrun

/-! ### Bit 0 of `pc` (10_state R15) -/

/-- The displacement a jump or branch may add to `pc`. -/
def pcOffset : Instr → Option Word
  | .jal _ imm | .beq _ _ imm | .bne _ _ imm | .blt _ _ imm | .bge _ _ imm | .bltu _ _ imm | .bgeu _ _ imm => some imm
  | _ => none

/-- A branch is taken or falls through. -/
theorem branch_pc_cases (s : State) (c : Bool) (imm : Word) :
    (s.branch c imm).pc = s.pc + 4#32 ∨ (s.branch c imm).pc = s.pc + imm := by
  rw [branch_pc]
  cases c
  · exact .inl rfl
  · exact .inr rfl

/-- Where an instruction leaves `pc`: after it, at its displacement, or at a target with bit 0 cleared. -/
theorem exec_pc {i : Instr} {s t : State} (h : exec i s = .next t) :
    t.pc = s.pc + 4#32 ∨ (∃ imm, pcOffset i = some imm ∧ t.pc = s.pc + imm) ∨ ∃ x, t.pc = x &&& 0xFFFFFFFE#32 := by
  cases i
  case jal => cases h; exact .inr (.inl ⟨_, rfl, rfl⟩)
  case jalr => cases h; exact .inr (.inr ⟨_, rfl⟩)
  case beq | bne | blt | bge | bltu | bgeu =>
    cases h
    exact (branch_pc_cases ..).imp_right fun htaken => .inl ⟨_, rfl, htaken⟩
  all_goals cases h; exact .inl (by simp)

theorem immB_even (iw : Word) : (immB iw).getLsbD 0 = false := by
  rw [immB, BitVec.getLsbD_signExtend, BitVec.getLsbD_append]; rfl

theorem immJ_even (iw : Word) : (immJ iw).getLsbD 0 = false := by
  rw [immJ, BitVec.getLsbD_signExtend, BitVec.getLsbD_append]; rfl

/-- The displacement of a decoded instruction is even (30_encoding R64, R66). -/
theorem pcOffset_even {iw imm : Word} {i : Instr} (h : decode iw = .ok i) (hoff : pcOffset i = some imm) :
    imm.getLsbD 0 = false := by
  obtain ⟨-, hcarried⟩ := decode_ok h
  cases i
  case jal =>
    obtain ⟨rfl, rfl⟩ := hcarried
    cases hoff; exact immJ_even iw
  case beq | bne | blt | bge | bltu | bgeu =>
    obtain ⟨rfl, rfl, rfl⟩ := hcarried
    cases hoff; exact immB_even iw
  all_goals cases hoff

/-- An even displacement keeps bit 0. -/
theorem add_even_lsb (x y : Word) (hy : y.getLsbD 0 = false) : (x + y).getLsbD 0 = x.getLsbD 0 := by
  rw [BitVec.getLsbD_add (by decide), hy]
  simp

/-- A step from an even `pc` ends at an even `pc`. -/
theorem step_keeps_even_pc {s t : State} (h : step s = .next t) (hs : s.pc.getLsbD 0 = false) :
    t.pc.getLsbD 0 = false := by
  obtain ⟨-, ⟨i, hdecode, hexec⟩ | ⟨-, rfl⟩⟩ := step_next h
  · obtain hpc | ⟨imm, hoff, hpc⟩ | ⟨x, hpc⟩ := exec_pc hexec <;> rw [hpc]
    · rw [add_even_lsb _ _ rfl, afterFetch_pc, hs]
    · rw [add_even_lsb _ _ (pcOffset_even hdecode hoff), afterFetch_pc, hs]
    · simp
  · rw [afterFetch_pc, hs]

/-- Settles O45: an even `pc` stays even in every step, hence in every run. -/
theorem oddPcOnlyFromOddResetPc : Obligations.OddPcOnlyFromOddResetPc := by
  refine ⟨fun s t hstep hodd => ?_, fun c image regInit k t hrun hodd => ?_⟩
  · by_contra hs
    have heven := step_keeps_even_pc hstep (Bool.eq_false_of_not_eq_true hs)
    exact Bool.false_ne_true (heven.symm.trans hodd)
  · by_contra hs
    have heven := run_keeps (P := fun s => s.pc.getLsbD 0 = false) (fun _ _ => step_keeps_even_pc) hrun
      (Bool.eq_false_of_not_eq_true hs)
    exact Bool.false_ne_true (heven.symm.trans hodd)

end Sys2Proof.Machine
end

section
/-! PROOFS. The datapath and the step are one machine (O47): the signals of a record, what the clock boundary commits
of them for each shape of an instruction, and the meaning of each instruction as one of these shapes. -/

namespace Sys2Proof.Machine

/-! ### States and the clock boundary -/

/-- Two states are equal if their fields are. -/
theorem state_eq {s t : State} (hcfg : s.cfg = t.cfg) (hpc : s.pc = t.pc) (hregs : s.regs = t.regs)
    (hmem : s.mem = t.mem) (hout : s.output = t.output) (hdraws : s.draws = t.draws) : s = t := by
  cases s; cases t
  simp only at hcfg hpc hregs hmem hout hdraws
  rw [hcfg, hpc, hregs, hmem, hout, hdraws]

/-- The register file after a register write depends on the register file alone. -/
theorem writeReg_regs_of_regs {s t : State} (h : t.regs = s.regs) (i : RegIdx) (v : Word) :
    (t.writeReg i v).regs = (s.writeReg i v).regs := by
  unfold State.writeReg
  split <;> simp [h]

theorem afterFetch_draws (s : State) :
    s.afterFetch.draws = s.draws + if inWindow s.cfg s.pc then 0 else 1 := by
  unfold State.afterFetch
  rw [afterRead_draws]
  split <;> rfl

@[simp] theorem commit_cfg (s : State) (g : Signals) : (s.commit g).cfg = s.cfg := rfl
@[simp] theorem commit_pc (s : State) (g : Signals) : (s.commit g).pc = g.nextPc := rfl
@[simp] theorem commit_regs (s : State) (g : Signals) : (s.commit g).regs = s.regsAfter g := rfl
@[simp] theorem commit_mem (s : State) (g : Signals) : (s.commit g).mem = s.memAfter g := rfl
@[simp] theorem commit_output (s : State) (g : Signals) :
    (s.commit g).output = s.output ++ g.outPort.toList := rfl
@[simp] theorem commit_draws (s : State) (g : Signals) : (s.commit g).draws = s.draws + s.drawsIn g := rfl

/-! ### The columns of the table of R100 on a state -/

/-- The register-write column: what the operation writes in the state `s`, `data` being what the data channel
returned. -/
def State.writeColumn (s : State) (d : DecodedRecord) (data : Option Word) : Option Word :=
  registerWrite d s.pc (s.readReg d.rs1) (s.readReg d.rs2) data

/-- The next-pc column. -/
def State.pcColumn (s : State) (d : DecodedRecord) : Word := nextPcOf d s.pc (s.readReg d.rs1) (s.readReg d.rs2)

/-- The fetch leaves what the columns read. -/
@[simp] theorem writeColumn_afterFetch (s : State) (d : DecodedRecord) (data : Option Word) :
    s.afterFetch.writeColumn d data = s.writeColumn d data := by
  simp [State.writeColumn]

@[simp] theorem pcColumn_afterFetch (s : State) (d : DecodedRecord) : s.afterFetch.pcColumn d = s.pcColumn d := by
  simp [State.pcColumn]

/-! ### The signals of a record, one by one (10_state R21) -/

section Signals

variable (s : State) (iw : Word) (d : DecodedRecord)

@[simp] theorem recordSignals_nextPc : (s.recordSignals iw d).nextPc = s.pcColumn d := rfl

theorem recordSignals_writeData :
    (s.recordSignals iw d).writeData = s.writeColumn d (s.recordSignals iw d).dmemRdata := rfl

@[simp] theorem recordSignals_writeEnable :
    (s.recordSignals iw d).writeEnable = (s.recordSignals iw d).writeData.isSome := rfl

@[simp] theorem recordSignals_rdAddr : (s.recordSignals iw d).rdAddr = some d.rd := rfl

@[simp] theorem recordSignals_dec : (s.recordSignals iw d).dec = some d := rfl

@[simp] theorem recordSignals_imemAddr : (s.recordSignals iw d).imemAddr = s.pc := rfl

theorem recordSignals_dmemAddr {imm : Word} (hi : d.immediate = some imm) :
    (s.recordSignals iw d).dmemAddr = some (wordAlign (s.readReg d.rs1 + imm)) := by
  simp [State.recordSignals, hi]

theorem recordSignals_dmemRdata :
    (s.recordSignals iw d).dmemRdata = (s.recordSignals iw d).dmemAddr.bind (s.dataRead d.operation) := rfl

theorem recordSignals_dmemWdata :
    (s.recordSignals iw d).dmemWdata = if isStore d.operation then storeData d (s.readReg d.rs2) else none := rfl

theorem recordSignals_dmemBe {imm : Word} (hi : d.immediate = some imm) (hs : isStore d.operation = true) :
    (s.recordSignals iw d).dmemBe = storeEnables d (s.readReg d.rs1 + imm) := by
  simp [State.recordSignals, hi, hs]

theorem recordSignals_outPort :
    (s.recordSignals iw d).outPort = (s.recordSignals iw d).dmemAddr.bind fun a =>
      (s.recordSignals iw d).dmemWdata.bind fun w =>
        s.portOf d.operation a (s.recordSignals iw d).dmemBe w := rfl

end Signals

/-! ### What the clock boundary commits of them (10_state R13, 20_memory R39) -/

section Commit

variable {s : State} {iw : Word} {d : DecodedRecord}

theorem regsAfter_of_write {v : Word} (hv : (s.recordSignals iw d).writeData = some v) :
    s.regsAfter (s.recordSignals iw d) = (s.writeReg d.rd v).regs := by
  simp [State.regsAfter, hv]

theorem regsAfter_of_no_write (hv : (s.recordSignals iw d).writeData = none) :
    s.regsAfter (s.recordSignals iw d) = s.regs := by
  simp [State.regsAfter, hv]

/-- An operation that does not store drives no write data. -/
theorem dmemWdata_of_not_store (hs : isStore d.operation = false) : (s.recordSignals iw d).dmemWdata = none := by
  simp [recordSignals_dmemWdata, hs]

/-- An operation that does not store leaves memory as it is. -/
theorem memAfter_of_not_store (hs : isStore d.operation = false) :
    s.memAfter (s.recordSignals iw d) = s.mem := by
  unfold State.memAfter
  rw [dmemWdata_of_not_store hs]
  split <;> trivial

/-- An operation that does not store drives nothing on the port (20_memory R43). -/
theorem outPort_of_not_store (hs : isStore d.operation = false) : (s.recordSignals iw d).outPort = none := by
  simp [recordSignals_outPort, dmemWdata_of_not_store hs]

/-- The fetch alone can use a free value where nothing is loaded. -/
theorem drawsIn_of_not_load (hl : isLoad d.operation = false) :
    s.draws + s.drawsIn (s.recordSignals iw d) = s.afterFetch.draws := by
  rw [afterFetch_draws]
  unfold State.drawsIn
  rw [recordSignals_dec, recordSignals_imemAddr]
  cases (s.recordSignals iw d).dmemAddr <;> simp [hl]

/-- A load's data read can use one more. -/
theorem drawsIn_of_load {imm : Word} (hi : d.immediate = some imm) (hl : isLoad d.operation = true) :
    s.draws + s.drawsIn (s.recordSignals iw d) =
      (s.afterFetch.afterRead (wordAlign (s.readReg d.rs1 + imm))).draws := by
  rw [afterRead_draws, afterFetch_draws, afterFetch_cfg]
  unfold State.drawsIn
  rw [recordSignals_dec, recordSignals_imemAddr, recordSignals_dmemAddr s iw d hi]
  by_cases hread : inWindow s.cfg (wordAlign (s.readReg d.rs1 + imm)) = true
  · simp [hl, hread]
  · simp [hl, hread, Nat.add_assoc]

/-- A load's data is the word of the data channel, read after the fetch (20_memory R46; log 5). -/
theorem dmemRdata_of_load {imm : Word} (hi : d.immediate = some imm) (hl : isLoad d.operation = true) :
    (s.recordSignals iw d).dmemRdata =
      some (s.afterFetch.readWord (wordAlign (s.readReg d.rs1 + imm))) := by
  simp [recordSignals_dmemRdata, recordSignals_dmemAddr s iw d hi, State.dataRead, hl]

/-- A store's enabled lanes and its byte on the port are what `writeWord` does (20_memory R39, R43). -/
theorem commit_of_store {imm w : Word} (hi : d.immediate = some imm) (hs : isStore d.operation = true)
    (hw : storeData d (s.readReg d.rs2) = some w) :
    s.memAfter (s.recordSignals iw d) =
        (s.afterFetch.writeWord (wordAlign (s.readReg d.rs1 + imm)) (storeEnables d (s.readReg d.rs1 + imm)) w).mem ∧
      s.output ++ (s.recordSignals iw d).outPort.toList =
        (s.afterFetch.writeWord (wordAlign (s.readReg d.rs1 + imm))
          (storeEnables d (s.readReg d.rs1 + imm)) w).output := by
  simp only [State.memAfter, recordSignals_outPort, recordSignals_dmemAddr s iw d hi, recordSignals_dmemWdata,
    recordSignals_dmemBe s iw d hi hs, hs, hw, if_true, Option.bind_some, State.portOf, Bool.true_and]
  generalize wordAlign (s.readReg d.rs1 + imm) = a
  generalize storeEnables d (s.readReg d.rs1 + imm) = be
  unfold State.writeWord
  rw [afterFetch_cfg]
  by_cases ha : a = s.cfg.outAddr
  · cases be.getLsbD 0 <;> simp [ha]
  · cases inWindow s.cfg a <;> simp [ha]

end Commit

/-! ### The whole commit, for each shape of an instruction

Each hypothesis is the record's column of the table of R100, read on the state after the fetch. -/

section Shapes

variable {s : State} {iw : Word} {d : DecodedRecord}

/-- A result in a register, and any next `pc`. -/
theorem commit_register {v n : Word} (hl : isLoad d.operation = false) (hs : isStore d.operation = false)
    (hv : ∀ data, s.afterFetch.writeColumn d data = some v)
    (hn : s.afterFetch.pcColumn d = n) :
    s.commit (s.recordSignals iw d) = (s.afterFetch.writeReg d.rd v).setPc n := by
  simp only [writeColumn_afterFetch, pcColumn_afterFetch] at hv hn
  apply state_eq
  case hcfg => simp
  case hpc => exact hn
  case hregs =>
    exact (regsAfter_of_write (hv _)).trans (writeReg_regs_of_regs (afterFetch_regs s) d.rd v).symm
  case hmem => simp [memAfter_of_not_store hs]
  case hout => simp [outPort_of_not_store hs]
  case hdraws => simp [drawsIn_of_not_load hl]

/-- A result in a register, then the next instruction (40_execute_common R104). -/
theorem commit_writeBack {v : Word} (hl : isLoad d.operation = false) (hs : isStore d.operation = false)
    (hv : ∀ data, s.afterFetch.writeColumn d data = some v)
    (hn : s.afterFetch.pcColumn d = s.afterFetch.pc + 4#32) :
    s.commit (s.recordSignals iw d) = s.afterFetch.writeBack d.rd v := by
  rw [commit_register hl hs hv hn, State.writeBack, State.advance, writeReg_pc]

/-- A branch (43_branches). -/
theorem commit_branch {cond : Bool} {imm : Word} (hl : isLoad d.operation = false)
    (hs : isStore d.operation = false)
    (hv : ∀ data, s.afterFetch.writeColumn d data = none)
    (hn : s.afterFetch.pcColumn d = if cond then s.afterFetch.pc + imm else s.afterFetch.pc + 4#32) :
    s.commit (s.recordSignals iw d) = s.afterFetch.branch cond imm := by
  simp only [writeColumn_afterFetch, pcColumn_afterFetch, afterFetch_pc] at hv hn
  apply state_eq
  case hcfg => simp
  case hpc => simp [branch_pc, hn]
  case hregs => simp [regsAfter_of_no_write (hv _)]
  case hmem => simp [memAfter_of_not_store hs]
  case hout => simp [outPort_of_not_store hs]
  case hdraws => simp [drawsIn_of_not_load hl]

/-- A load (44_loads). -/
theorem commit_load {imm v : Word} (hl : isLoad d.operation = true) (hs : isStore d.operation = false)
    (hi : d.immediate = some imm)
    (hv : s.afterFetch.writeColumn d (some (s.afterFetch.readWord (wordAlign (s.afterFetch.effAddr d.rs1 imm)))) =
      some v)
    (hn : s.afterFetch.pcColumn d = s.afterFetch.pc + 4#32) :
    s.commit (s.recordSignals iw d) = s.afterFetch.finishLoad d.rd (s.afterFetch.effAddr d.rs1 imm) v := by
  simp only [writeColumn_afterFetch, pcColumn_afterFetch, afterFetch_pc, readReg_afterFetch, State.effAddr] at hv hn ⊢
  have hwrite : (s.recordSignals iw d).writeData = some v := by
    rw [recordSignals_writeData, dmemRdata_of_load hi hl, hv]
  apply state_eq
  case hcfg => simp
  case hpc => simp [hn]
  case hregs =>
    have hread : (s.afterFetch.afterRead (wordAlign (s.readReg d.rs1 + imm))).regs = s.regs := by simp
    exact (regsAfter_of_write hwrite).trans (writeReg_regs_of_regs hread d.rd v).symm
  case hmem => simp [memAfter_of_not_store hs]
  case hout => simp [outPort_of_not_store hs]
  case hdraws => simp [drawsIn_of_load hi hl, State.finishLoad]

/-- A store (45_stores). -/
theorem commit_store {imm w : Word} (hl : isLoad d.operation = false) (hs : isStore d.operation = true)
    (hi : d.immediate = some imm) (hw : storeData d (s.afterFetch.readReg d.rs2) = some w)
    (hv : ∀ data, s.afterFetch.writeColumn d data = none)
    (hn : s.afterFetch.pcColumn d = s.afterFetch.pc + 4#32) :
    s.commit (s.recordSignals iw d) =
      (s.afterFetch.writeWord (wordAlign (s.afterFetch.effAddr d.rs1 imm))
        (storeEnables d (s.afterFetch.effAddr d.rs1 imm)) w).advance := by
  simp only [writeColumn_afterFetch, pcColumn_afterFetch, afterFetch_pc, readReg_afterFetch,
    State.effAddr] at hw hv hn ⊢
  obtain ⟨hmem, hout⟩ := commit_of_store (iw := iw) hi hs hw
  apply state_eq
  case hcfg => simp
  case hpc => simp [hn]
  case hregs => simp [regsAfter_of_no_write (hv _)]
  case hmem => exact hmem
  case hout => exact hout
  case hdraws => simp [drawsIn_of_not_load hl]

/-- The Invalid stall (48_invalid_and_system R210). -/
theorem commit_invalid (s : State) (iw : Word) : s.commit (s.invalidSignals iw) = s.afterFetch := by
  apply state_eq
  case hcfg => exact (afterFetch_cfg s).symm
  case hpc => exact (afterFetch_pc s).symm
  case hregs => exact (afterFetch_regs s).symm
  case hmem => exact (afterFetch_mem s).symm
  case hout => simp [State.invalidSignals]
  case hdraws =>
    rw [afterFetch_draws]
    rfl

end Shapes

/-! ### The immediate shifts: amount and variant (30_encoding R62, R70) -/

/-- The shift amount of an immediate shift stands in the bits of `rs2`. -/
theorem shiftAmount_immI (iw : Word) : shiftAmount (immI iw) = rs2Field iw := by
  unfold shiftAmount immI rs2Field
  apply BitVec.eq_of_getLsbD_eq
  intro i hi
  rw [BitVec.getLsbD_extractLsb', BitVec.getLsbD_signExtend]
  simp [hi, show i < 32 by omega, show i < 12 by omega]

/-- A word of a row that tests funct7 has bit 30 of the row's pattern. -/
theorem bit30_of_match {r : OpcodeRow} {iw : Word} (h : r.matchesWord iw = true)
    (hmask : r.mask = 0xFE00707F#32) : iw.getLsbD 30 = r.pattern.getLsbD 30 := by
  have hpattern : iw &&& r.mask = r.pattern := by simpa [OpcodeRow.matchesWord] using h
  rw [← hpattern, hmask, BitVec.getLsbD_and]
  simp

/-- A row that tests funct7 settles the variant: its record is the one with the variant of the row's pattern. -/
theorem record_of_match {r : OpcodeRow} {iw p : Word} (h : r.matchesWord iw = true) (hmask : r.mask = 0xFE00707F#32)
    (hp : r.pattern = p) : r.record iw = { r.record iw with arithmeticVariant := variantOf p r.operation } := by
  simp only [OpcodeRow.record, variantOf, bit30_of_match h hmask, hp]

/-! ### One instruction -/

/-- The meaning of a decoded instruction is the commit of its record's signals. -/
theorem exec_eq_commit {iw : Word} {i : Instr} (h : decode iw = .ok i) (s : State) :
    exec i s.afterFetch = .next (s.commit (s.recordSignals iw (i.row.record iw))) := by
  obtain ⟨hmatch, hcarried⟩ := decode_ok h
  symm
  cases i
  case lui | auipc =>
    obtain ⟨rfl, rfl⟩ := hcarried
    exact congrArg Host.Outcome.next (commit_writeBack rfl rfl (fun _ => rfl) rfl)
  case jal =>
    obtain ⟨rfl, rfl⟩ := hcarried
    exact congrArg Host.Outcome.next (commit_register rfl rfl (fun _ => rfl) rfl)
  case jalr =>
    obtain ⟨rfl, rfl, rfl⟩ := hcarried
    exact congrArg Host.Outcome.next (commit_register rfl rfl (fun _ => rfl) rfl)
  case beq | bne | blt | bge | bltu | bgeu =>
    obtain ⟨rfl, rfl, rfl⟩ := hcarried
    exact congrArg Host.Outcome.next (commit_branch rfl rfl (fun _ => rfl) rfl)
  case lb | lh | lw | lbu | lhu =>
    obtain ⟨rfl, rfl, rfl⟩ := hcarried
    exact congrArg Host.Outcome.next (commit_load rfl rfl rfl rfl rfl)
  case sb | sh | sw =>
    obtain ⟨rfl, rfl, rfl⟩ := hcarried
    exact congrArg Host.Outcome.next (commit_store rfl rfl rfl rfl (fun _ => rfl) rfl)
  case addi | slti | sltiu | xori | ori | andi | sll | slt | sltu | xor | or | and =>
    obtain ⟨rfl, rfl, rfl⟩ := hcarried
    exact congrArg Host.Outcome.next (commit_writeBack rfl rfl (fun _ => rfl) rfl)
  case slli =>
    obtain ⟨rfl, rfl, rfl⟩ := hcarried
    rw [← shiftAmount_immI]
    exact congrArg Host.Outcome.next (commit_writeBack rfl rfl (fun _ => rfl) rfl)
  case srli =>
    obtain ⟨rfl, rfl, rfl⟩ := hcarried
    rw [record_of_match hmatch rfl (p := 0x00005013#32) rfl, ← shiftAmount_immI]
    exact congrArg Host.Outcome.next (commit_writeBack rfl rfl (fun _ => rfl) rfl)
  case srai =>
    obtain ⟨rfl, rfl, rfl⟩ := hcarried
    rw [record_of_match hmatch rfl (p := 0x40005013#32) rfl, ← shiftAmount_immI]
    exact congrArg Host.Outcome.next (commit_writeBack rfl rfl (fun _ => rfl) rfl)
  case add =>
    obtain ⟨rfl, rfl, rfl⟩ := hcarried
    rw [record_of_match hmatch rfl (p := 0x00000033#32) rfl]
    exact congrArg Host.Outcome.next (commit_writeBack rfl rfl (fun _ => rfl) rfl)
  case sub =>
    obtain ⟨rfl, rfl, rfl⟩ := hcarried
    rw [record_of_match hmatch rfl (p := 0x40000033#32) rfl]
    exact congrArg Host.Outcome.next (commit_writeBack rfl rfl (fun _ => rfl) rfl)
  case srl =>
    obtain ⟨rfl, rfl, rfl⟩ := hcarried
    rw [record_of_match hmatch rfl (p := 0x00005033#32) rfl]
    exact congrArg Host.Outcome.next (commit_writeBack rfl rfl (fun _ => rfl) rfl)
  case sra =>
    obtain ⟨rfl, rfl, rfl⟩ := hcarried
    rw [record_of_match hmatch rfl (p := 0x40005033#32) rfl]
    exact congrArg Host.Outcome.next (commit_writeBack rfl rfl (fun _ => rfl) rfl)

/-- Settles O47: the two decoders agree, then each shape of an instruction commits what its meaning answers. -/
theorem datapathAgreesWithStep : Obligations.DatapathAgreesWithStep := by
  intro s hlegal
  rw [step, if_pos hlegal, runWord, State.cycle, State.signals]
  cases hdecode : decode s.fetchWord with
  | ok i =>
    rw [decodeRecord_of_ok hdecode]
    exact exec_eq_commit hdecode s
  | error e =>
    rw [decodeRecord_of_error hdecode]
    exact congrArg Host.Outcome.next (commit_invalid s s.fetchWord).symm

end Sys2Proof.Machine
end

section
/-! PROOFS. The word channel (spec/20_memory.md): aligned addresses and the bytes after them (O28, O29), rounding (O30),
the store that the next fetch sees (O32) and the free reads outside the window (O34). -/

namespace Sys2Proof.Machine

/-! ### An aligned address and the three bytes after it (20_memory R33, R35) -/

section Aligned

variable {a : Word} (ha : a.toNat % 4 = 0)
include ha

/-- The offset of a byte inside an aligned word does not wrap. -/
theorem toNat_add_of_aligned {i : Nat} (hi : i < 4) : (a + BitVec.ofNat 32 i).toNat = a.toNat + i := by
  have hlt := a.isLt
  rw [BitVec.toNat_add, BitVec.toNat_ofNat]
  omega

theorem wordAlign_add_of_aligned {i : Nat} (hi : i < 4) : wordAlign (a + BitVec.ofNat 32 i) = a := by
  apply BitVec.eq_of_toNat_eq
  rw [wordAlign_toNat, toNat_add_of_aligned ha hi]
  omega

theorem byteLane_add_of_aligned {i : Nat} (hi : i < 4) : byteLane (a + BitVec.ofNat 32 i) = i := by
  rw [byteLane_eq, toNat_add_of_aligned ha hi]
  omega

theorem halfLane_add_of_aligned {h : Nat} (hh : h < 2) : halfLane (a + BitVec.ofNat 32 (2 * h)) = h := by
  rw [halfLane_eq, toNat_add_of_aligned ha (by omega)]
  omega

theorem wordAlign_of_aligned : wordAlign a = a := by
  simpa using wordAlign_add_of_aligned ha (i := 0) (by omega)

/-- An aligned address of the window is itself the key of its word. -/
theorem wordKey_of_aligned {c : Config} (hc : legalBuild c = true) (hw : inWindow c a = true) :
    wordKey c a = a.toNat := by
  rw [wordKey_eq hc hw, wordAlign_of_aligned ha]

/-- The byte read at `a + i` selects lane `i` of the word at `a` (R41, R46). -/
theorem memRead1_add_of_aligned (s : State) {i : Nat} (hi : i < 4) :
    s.memRead1 (a + BitVec.ofNat 32 i) = lane (s.readWord a) i := by
  rw [State.memRead1, selectByte, wordAlign_add_of_aligned ha hi, byteLane_add_of_aligned ha hi, lane]

/-- The half read at `a + 2h` selects half lane `h` of the word at `a` (R46). -/
theorem memRead2_add_of_aligned (s : State) {h : Nat} (hh : h < 2) :
    s.memRead2 (a + BitVec.ofNat 32 (2 * h)) = (s.readWord a).extractLsb' (16 * h) 16 := by
  rw [State.memRead2, selectHalf, wordAlign_add_of_aligned ha (by omega), halfLane_add_of_aligned ha hh]

end Aligned

/-- A half lane is two byte lanes, the lower one first (R41). -/
theorem half_eq_lanes (w : Word) (h : Nat) :
    w.extractLsb' (16 * h) 16 = lane w (2 * h + 1) ++ lane w (2 * h) := by
  rw [lane, lane, BitVec.extractLsb'_append_extractLsb'_eq_extractLsb' (by omega), show 8 * (2 * h) = 16 * h by omega]

/-! ### Reads and writes of the channel (20_memory R36 to R39) -/

theorem readWord_of_inWindow {s : State} {a : Word} (hw : inWindow s.cfg a = true) :
    s.readWord a = Memory.readWord s.mem (wordKey s.cfg a) := by
  simp [State.readWord, State.wordAt, hw]

theorem readWord_of_not_inWindow {s : State} {a : Word} (hw : inWindow s.cfg a = false) :
    s.readWord a = Config.any32 s.draws := by
  simp [State.readWord, hw]

theorem afterRead_of_not_inWindow {s : State} {a : Word} (hw : inWindow s.cfg a = false) :
    s.afterRead a = { s with draws := s.draws + 1 } := by
  simp [State.afterRead, hw]

/-- Lane `i` of an aligned word of the window is the byte of memory at `a + i` (R41). -/
theorem lane_readWord_of_aligned {s : State} {a : Word} (hlegal : legalBuild s.cfg = true)
    (hw : inWindow s.cfg a = true) (ha : a.toNat % 4 = 0) {i : Nat} (hi : i < 4) :
    lane (s.readWord a) i = Memory.readByte s.mem (a.toNat + i) := by
  rw [readWord_of_inWindow hw, lane_readWord _ _ _ hi, wordKey_of_aligned ha hlegal hw]

/-- With no lane enabled a channel write does nothing at any address (R39). -/
theorem writeWord_no_enables (s : State) (a d : Word) : s.writeWord a 0b0000#4 d = s := by
  have hlanes : Memory.writeLanes s.mem (wordKey s.cfg a) 0b0000#4 d = s.mem := by
    simp [Memory.writeLanes, Memory.writeLane]
  unfold State.writeWord
  rw [hlanes]
  simp

/-- A channel write at an aligned address of the window: byte `n` is new exactly if it is an enabled lane of the word
at `a` (R39). -/
theorem writeWord_of_aligned {s : State} {a : Word} (hlegal : legalBuild s.cfg = true)
    (hw : inWindow s.cfg a = true) (ha : a.toNat % 4 = 0) (be : ByteEnable) (d : Word) :
    (s.writeWord a be d).output = s.output ∧
      ∀ n : Nat, Memory.readByte (s.writeWord a be d).mem n =
        if a.toNat ≤ n ∧ n < a.toNat + 4 ∧ be.getLsbD (n - a.toNat) = true then lane d (n - a.toNat)
        else Memory.readByte s.mem n := by
  have hwrite := writeWord_window (ne_outAddr_of_inWindow hlegal hw) hw be d
  rwa [wordKey_of_aligned ha hlegal hw] at hwrite

/-- Settles O28: the three destinations of a channel write, and the write under no enables. -/
theorem wordWriteUnderEnables : Obligations.WordWriteUnderEnables := by
  intro s a be d hlegal haligned
  refine ⟨writeWord_pc .., fun _ => readReg_writeWord .., ?sentinel, ?window, ?elsewhere, ?disabled⟩
  case sentinel =>
    rintro rfl
    obtain ⟨hmem, hout⟩ := writeWord_outAddr s be d
    exact ⟨fun n => by rw [hmem], hout⟩
  case window => exact fun _ hw => writeWord_of_aligned hlegal hw haligned be d
  case elsewhere => exact fun ho hw => writeWord_elsewhere ho hw be d
  case disabled =>
    rintro rfl
    rw [writeWord_no_enables]
    exact ⟨fun _ => rfl, rfl⟩

/-- Settles O29: a read selects lanes of the aligned word, whose lanes are the bytes of memory in ascending order. -/
theorem lanesAreLittleEndian : Obligations.LanesAreLittleEndian := by
  intro s a hlegal hw haligned
  have hlane : ∀ i, i < 4 → lane (s.readWord a) i = Memory.readByte s.mem (a.toNat + i) :=
    fun i hi => lane_readWord_of_aligned hlegal hw haligned hi
  refine ⟨fun i hi => ?byte, fun h hh => ?half, fun be d i hi => ?enable⟩
  case byte =>
    have hread := memRead1_add_of_aligned haligned s hi
    exact ⟨hread, hread.trans (hlane i hi)⟩
  case half =>
    have hread := memRead2_add_of_aligned haligned s hh
    refine ⟨hread, ?_⟩
    rw [hread, half_eq_lanes, hlane _ (by omega), hlane _ (by omega), Nat.add_assoc]
  case enable =>
    obtain ⟨-, hbytes⟩ := writeWord_of_aligned hlegal hw haligned be d
    rw [hbytes, Nat.add_sub_cancel_left]
    simp [hi, lane]

/-! ### Rounding (20_memory R48, R49) -/

theorem wordAlign_clear_bit_0 (ea : Word) : wordAlign (ea &&& 0xFFFFFFFE#32) = wordAlign ea := by
  rw [wordAlign, BitVec.and_assoc]
  rfl

theorem halfLane_clear_bit_0 (ea : Word) : halfLane (ea &&& 0xFFFFFFFE#32) = halfLane ea := by
  unfold halfLane
  rw [BitVec.extractLsb'_and, show (0xFFFFFFFE#32).extractLsb' 1 1 = BitVec.allOnes 1 from rfl, BitVec.and_allOnes]

/-- In a legal build a read does not see the low two bits of its address, in the window or outside it. -/
theorem readWord_wordAlign {s : State} (hlegal : legalBuild s.cfg = true) (a : Word) :
    s.readWord (wordAlign a) = s.readWord a := by
  have halign := inWindow_wordAlign hlegal a
  cases hw : inWindow s.cfg a with
  | true =>
    rw [hw] at halign
    rw [readWord_of_inWindow hw, readWord_of_inWindow halign, wordKey_eq hlegal hw, wordKey_eq hlegal halign,
      wordAlign_wordAlign]
  | false =>
    rw [hw] at halign
    rw [readWord_of_not_inWindow hw, readWord_of_not_inWindow halign]

/-- Settles O30: the aligned address and the half lane ignore the low bits, and so does the fetch's word index. -/
theorem misalignedAccessesRoundDown : Obligations.MisalignedAccessesRoundDown := by
  intro s ea v hlegal
  refine ⟨?read2, ?write2, ?read4, ?write4, ?fetch⟩
  case read2 => rw [State.memRead2, State.memRead2, selectHalf, selectHalf, wordAlign_clear_bit_0, halfLane_clear_bit_0]
  case write2 =>
    rw [State.memWrite2, State.memWrite2, byteEnable2, byteEnable2, wordAlign_clear_bit_0, halfLane_clear_bit_0]
  case read4 => exact congrArg s.readWord (wordAlign_wordAlign ea).symm
  case write4 => exact congrArg (s.writeWord · byteEnable4 v) (wordAlign_wordAlign ea).symm
  case fetch => exact (readWord_wordAlign hlegal ea).symm

/-! ### The fetch after a store, and reads outside the window (20_memory R38, R54, R57) -/

/-- A word stored in the window is the word at every address of the word it was stored in. -/
theorem readWord_memWrite4 {s : State} {ea b : Word} (hlegal : legalBuild s.cfg = true)
    (hw : inWindow s.cfg b = true) (hsame : wordAlign ea = wordAlign b) (v : Word) :
    (s.memWrite4 ea v).readWord b = v := by
  have halign : inWindow s.cfg (wordAlign b) = true := (inWindow_wordAlign hlegal b).trans hw
  have hkey : wordKey s.cfg (wordAlign b) = wordKey s.cfg b := by
    rw [wordKey_eq hlegal halign, wordAlign_wordAlign, wordKey_eq hlegal hw]
  have hmem : (s.memWrite4 ea v).mem = Memory.writeLanes s.mem (wordKey s.cfg b) 0b1111#4 v := by
    simp only [State.memWrite4, hsame, State.writeWord, if_neg (ne_outAddr_of_inWindow hlegal halign), halign, hkey,
      if_true, byteEnable4]
  rw [readWord_of_inWindow (by rwa [memWrite4_cfg]), memWrite4_cfg, hmem, readWord_writeLanes_self]

/-- A step with `pc` in the window runs the stored word on the state as it is. -/
theorem step_of_inWindow {s : State} (hlegal : legalBuild s.cfg = true) (hpc : inWindow s.cfg s.pc = true) :
    step s = runWord (s.readWord s.pc) s := by
  rw [step, if_pos hlegal, State.fetchWord, State.afterFetch, afterRead_of_inWindow hpc]

/-- Advancing `pc` changes nothing that a read at a given address sees. -/
@[simp] theorem readWord_advance (s : State) (a : Word) : s.advance.readWord a = s.readWord a := rfl

/-- Settles O32: after the store `pc + 4` is in the window, and the word there is the one stored. -/
theorem storeIsSeenByTheNextFetch : Obligations.StoreIsSeenByTheNextFetch := by
  intro rs1 rs2 imm s hlegal hpc hsame
  refine ⟨_, rfl, ?_⟩
  rw [step_of_inWindow (by simpa using hlegal) (by simpa using hpc), readWord_advance, advance_pc, memWrite4_pc,
    State.effAddr, readWord_memWrite4 hlegal hpc hsame]

/-- Settles O34: both channels read through `readWord`, which outside the window uses up a free value. -/
theorem outOfWindowReadsAreFree : Obligations.OutOfWindowReadsAreFree := by
  refine ⟨fun s a hw => ⟨readWord_of_not_inWindow hw, afterRead_of_not_inWindow hw⟩, fun s hlegal hpc => ?_⟩
  rw [step, if_pos hlegal, State.fetchWord, State.afterFetch, readWord_of_not_inWindow hpc,
    afterRead_of_not_inWindow hpc]

end Sys2Proof.Machine
end

section
/-! PROOFS. The output port (O27) and what a whole step leaves of the constants, the port's stream and the free values
(O44). -/

namespace Sys2Proof.Machine

/-! ### Which store addresses drive the port (20_memory R43) -/

section Sentinel

variable {o : Word} (ho : o.toNat % 4 = 0)
include ho

/-- The four addresses of the word of an aligned sentinel. -/
theorem wordAlign_eq_iff (ea : Word) :
    wordAlign ea = o ↔ ea = o ∨ ea = o + 1#32 ∨ ea = o + 2#32 ∨ ea = o + 3#32 := by
  constructor
  · intro h
    have hdiv := wordAlign_toNat ea
    rw [h] at hdiv
    bv_omega
  · rintro (rfl | rfl | rfl | rfl)
    · exact wordAlign_of_aligned ho
    · exact wordAlign_add_of_aligned ho (i := 1) (by omega)
    · exact wordAlign_add_of_aligned ho (i := 2) (by omega)
    · exact wordAlign_add_of_aligned ho (i := 3) (by omega)

/-- A byte store drives lane 0 of the sentinel's word at the sentinel alone. -/
theorem byteEnable1_at_sentinel (ea : Word) :
    wordAlign ea = o ∧ (byteEnable1 ea).getLsbD 0 = true ↔ ea = o := by
  rw [wordAlign_eq_iff ho, byteEnable1_bit ea (by omega), decide_eq_true_eq]
  bv_omega

/-- A half store drives lane 0 of the sentinel's word at the sentinel and at the odd address after it. -/
theorem byteEnable2_at_sentinel (ea : Word) :
    wordAlign ea = o ∧ (byteEnable2 ea).getLsbD 0 = true ↔ ea = o ∨ ea = o + 1#32 := by
  rw [wordAlign_eq_iff ho, byteEnable2_bit ea (by omega), decide_eq_true_eq]
  bv_omega

end Sentinel

/-! ### The port's stream after a store -/

/-- A channel write drives lane 0 on the port exactly at the sentinel and under its enable (R43). -/
theorem writeWord_output (s : State) (a : Word) (be : ByteEnable) (d : Word) :
    (s.writeWord a be d).output =
      s.output ++ (if a = s.cfg.outAddr ∧ be.getLsbD 0 = true then some (lane d 0) else none).toList := by
  unfold State.writeWord
  by_cases ho : a = s.cfg.outAddr
  · cases be.getLsbD 0 <;> simp [ho]
  · cases inWindow s.cfg a <;> simp [ho]

/-- The byte on the port is the low byte of the register, by the table of R43, for every instruction. -/
theorem exec_output {i : Instr} {s t : State} (hlegal : legalBuild s.cfg = true) (h : exec i s = .next t) :
    t.output = s.output ++ (portByte s i).toList := by
  obtain ⟨-, -, ho, -, -⟩ := (legalBuild_iff s.cfg).mp hlegal
  cases i
  case sb rs1 rs2 imm =>
    cases h
    rw [advance_output, State.memWrite1, writeWord_output, lane_replicateByte _ (by omega)]
    simp only [byteEnable1_at_sentinel ho]
    rfl
  case sh rs1 rs2 imm =>
    cases h
    rw [advance_output, State.memWrite2, writeWord_output, lane_replicateHalf _ (by omega)]
    simp only [byteEnable2_at_sentinel ho]
    rfl
  case sw rs1 rs2 imm =>
    cases h
    rw [advance_output, State.memWrite4, writeWord_output]
    simp only [byteEnable4_bit (i := 0) (by omega), and_true, wordAlign_eq_iff ho]
    rfl
  all_goals cases h; simp [portByte]

/-- An instruction whose store addresses the sentinel's word stores nothing (R39, R43). -/
theorem exec_memKept_of_sentinel {i : Instr} {s t : State} {ea : Word} {be : ByteEnable}
    (hlegal : legalBuild s.cfg = true) (h : exec i s = .next t) (htarget : storeTarget s i = some (ea, be))
    (ho : wordAlign ea = s.cfg.outAddr) : MemKept s t := by
  rcases exec_mem h with hmem | ⟨ea', be', d, htarget', hw, -⟩
  · exact fun n => by rw [hmem]
  · obtain ⟨rfl, -⟩ : ea = ea' ∧ be = be' := by simpa using htarget.symm.trans htarget'
    exact absurd ho (ne_outAddr_of_inWindow hlegal hw)

/-- The fetch leaves what the table of R43 reads. -/
@[simp] theorem portByte_afterFetch (s : State) (i : Instr) : portByte s.afterFetch i = portByte s i := by
  cases i <;> simp [portByte]

/-- Settles O27: the table for one instruction, then for the instruction a step executes after its fetch. -/
theorem outputPortFollowsItsTable : Obligations.OutputPortFollowsItsTable := by
  refine ⟨fun i s t hlegal h => ⟨exec_output hlegal h, fun ea be => exec_memKept_of_sentinel hlegal h⟩,
    fun s t hstep => ?_⟩
  obtain ⟨hlegal, ⟨i, hdecode, hexec⟩ | ⟨⟨r, hdecode⟩, rfl⟩⟩ := step_next hstep
  · rw [hdecode, exec_output (by rwa [afterFetch_cfg]) hexec, afterFetch_output, portByte_afterFetch]
  · rw [hdecode, afterFetch_output, List.append_nil]

/-! ### Free values (20_memory R38) -/

theorem afterRead_draws_bounds (s : State) (a : Word) :
    s.draws ≤ (s.afterRead a).draws ∧ (s.afterRead a).draws ≤ s.draws + 1 := by
  rw [afterRead_draws]
  split <;> omega

/-- An instruction uses at most one free value: the data read of a load. -/
theorem exec_draws_bounds {i : Instr} {s t : State} (h : exec i s = .next t) :
    s.draws ≤ t.draws ∧ t.draws ≤ s.draws + 1 := by
  cases i
  case lb | lh | lw | lbu | lhu =>
    cases h
    rw [State.finishLoad, writeBack_draws]
    exact afterRead_draws_bounds ..
  all_goals cases h; simp

/-- Settles O44: the fetch and then the instruction each keep the constants and use at most one free value; the stream
grows by the byte of the table of R43. -/
theorem stepEmitsAtMostOneByte : Obligations.StepEmitsAtMostOneByte := by
  intro s t hstep
  have hfetch : s.draws ≤ s.afterFetch.draws ∧ s.afterFetch.draws ≤ s.draws + 1 := afterRead_draws_bounds ..
  obtain ⟨hlegal, ⟨i, -, hexec⟩ | ⟨-, rfl⟩⟩ := step_next hstep
  · have hout := exec_output (by rwa [afterFetch_cfg]) hexec
    have hdraws := exec_draws_bounds hexec
    refine ⟨(exec_cfg hexec).trans (afterFetch_cfg s), ?_, by omega, by omega⟩
    rw [afterFetch_output] at hout
    cases hbyte : portByte s.afterFetch i with
    | none => exact .inl (by simpa [hbyte] using hout)
    | some b => exact .inr ⟨b, by simpa [hbyte] using hout⟩
  · exact ⟨afterFetch_cfg s, .inl (afterFetch_output s), by omega, by omega⟩

end Sys2Proof.Machine
end

section
/-! PROOFS. The five immediates (O4; spec/30_encoding.md R62 to R66): their bits, their ranges, and the round trip of
each format's encoder. -/

namespace Sys2Proof

/-! ### Sign extension -/

/-- Bit `i` of a sign extension: above the sign it repeats the sign. -/
theorem getLsbD_signExtend_word {n i : Nat} (x : BitVec (n + 1)) (hi : i < 32) :
    (x.signExtend 32).getLsbD i = x.getLsbD (min i n) := by
  rw [BitVec.getLsbD_signExtend, BitVec.msb_eq_getLsbD_last]
  by_cases h : i < n + 1
  · simp [hi, h, show min i n = i by omega]
  · simp [hi, h, show min i n = n by omega]

/-- A sign extension of `n + 1` bits stays in their two's complement range. -/
theorem toInt_signExtend_bounds {n : Nat} (hn : n < 32) (x : BitVec (n + 1)) :
    -2 ^ n ≤ (x.signExtend 32).toInt ∧ (x.signExtend 32).toInt < 2 ^ n := by
  rw [BitVec.toInt_signExtend_of_le hn]
  exact ⟨x.le_toInt, x.toInt_lt⟩

/-- A value in that range is the sign extension of its low `n + 1` bits. -/
theorem signExtend_extract_of_bounds {v : Word} {n : Nat} (hn : n < 32) (hlow : -2 ^ n ≤ v.toInt)
    (hhigh : v.toInt < 2 ^ n) : (v.extractLsb' 0 (n + 1)).signExtend 32 = v := by
  rw [← BitVec.setWidth_eq_extractLsb' hn]
  apply signExtend_setWidth hn
  have hdvd : 2 ^ (n + 1) ∣ 2 ^ 32 := Nat.pow_dvd_pow 2 hn
  have hpow : ((2 ^ (n + 1) : Nat) : Int) = 2 * 2 ^ n := by push_cast; ring
  calc v.toInt = v.toInt.bmod (2 ^ (n + 1)) := (Int.bmod_eq_of_le (by omega) (by omega)).symm
    _ = (v.toNat : Int).bmod (2 ^ (n + 1)) := by rw [BitVec.toInt_eq_toNat_bmod, Int.bmod_bmod_of_dvd hdvd]

/-! ### The bits of each immediate

Up to the sign bit an immediate has the bits of its concatenation; from there on it repeats bit 31 of the word. -/

section Bits

variable (iw : Word) {i : Nat} (hi : i < 32)
include hi

theorem immI_bit : (immI iw).getLsbD i = if i < 11 then iw.getLsbD (20 + i) else iw.getLsbD 31 := by
  rw [immI, getLsbD_signExtend_word _ hi, BitVec.getLsbD_extractLsb']
  rcases Nat.lt_or_ge i 11 with h | h
  · rw [Nat.min_eq_left h.le]; simp [h, show i < 12 by omega]
  · rw [Nat.min_eq_right h]; simp [show ¬ i < 11 by omega]

theorem immS_bit : (immS iw).getLsbD i =
    if i < 5 then iw.getLsbD (7 + i) else if i < 11 then iw.getLsbD (20 + i) else iw.getLsbD 31 := by
  rw [immS, getLsbD_signExtend_word _ hi]
  simp only [BitVec.getLsbD_append, BitVec.getLsbD_extractLsb']
  rcases Nat.lt_or_ge i 11 with h | h
  · rw [Nat.min_eq_left h.le]; grind
  · rw [Nat.min_eq_right h]; grind

theorem immB_bit : (immB iw).getLsbD i =
    if i = 0 then false else if i < 5 then iw.getLsbD (7 + i) else if i < 11 then iw.getLsbD (20 + i)
    else if i = 11 then iw.getLsbD 7 else iw.getLsbD 31 := by
  rw [immB, getLsbD_signExtend_word _ hi]
  simp only [BitVec.getLsbD_append, BitVec.getLsbD_extractLsb']
  rcases Nat.lt_or_ge i 12 with h | h
  · rw [Nat.min_eq_left h.le]; grind
  · rw [Nat.min_eq_right h]; grind

theorem immU_bit : (immU iw).getLsbD i = if i < 12 then false else iw.getLsbD i := by
  rw [immU, BitVec.getLsbD_append, BitVec.getLsbD_extractLsb']
  rcases Nat.lt_or_ge i 12 with h | h
  · simp [h]
  · simp [Nat.not_lt.mpr h, show i - 12 < 20 by omega, Nat.add_sub_cancel' h]

theorem immJ_bit : (immJ iw).getLsbD i =
    if i = 0 then false else if i < 11 then iw.getLsbD (20 + i) else if i = 11 then iw.getLsbD 20
    else if i < 20 then iw.getLsbD i else iw.getLsbD 31 := by
  rw [immJ, getLsbD_signExtend_word _ hi]
  simp only [BitVec.getLsbD_append, BitVec.getLsbD_extractLsb']
  rcases Nat.lt_or_ge i 20 with h | h
  · rw [Nat.min_eq_left h.le]; grind
  · rw [Nat.min_eq_right h]; grind

end Bits

theorem mask_immU_bits : ∀ i : Fin 32, (0xFFFFF000#32).getLsbD i.val = decide (12 ≤ i.val) := by decide

/-- The second form of R65. -/
theorem immU_eq_and (iw : Word) : immU iw = iw &&& 0xFFFFF000#32 := by
  apply BitVec.eq_of_getLsbD_eq
  intro i hi
  have hm := mask_immU_bits ⟨i, hi⟩
  simp only at hm
  rw [immU_bit iw hi, BitVec.getLsbD_and, hm]
  rcases Nat.lt_or_ge i 12 with h | h
  · simp [h]
  · simp [h, Nat.not_lt.mpr h]

/-! ### The ranges as numbers -/

theorem fitsImm12_iff (v : Word) : fitsImm12 v = true ↔ -2 ^ 11 ≤ v.toInt ∧ v.toInt < 2 ^ 11 := by
  simp only [fitsImm12, decide_eq_true_eq]
  omega

/-- An even word is one with bit 0 clear. -/
theorem toNat_even_iff (v : Word) : v.toNat % 2 = 0 ↔ v.getLsbD 0 = false := by
  simp [BitVec.getLsbD, Nat.testBit_zero]

/-- An even word is an even number under the signed reading too. -/
theorem toInt_even {v : Word} (heven : v.toNat % 2 = 0) : v.toInt % 2 = 0 := by
  rw [BitVec.toInt_eq_toNat_cond]
  split <;> omega

theorem fitsImmB_iff (v : Word) :
    fitsImmB v = true ↔ (-2 ^ 12 ≤ v.toInt ∧ v.toInt < 2 ^ 12) ∧ v.getLsbD 0 = false := by
  rw [← toNat_even_iff]
  have := @toInt_even v
  simp only [fitsImmB, decide_eq_true_eq]
  omega

theorem fitsImmJ_iff (v : Word) :
    fitsImmJ v = true ↔ (-2 ^ 20 ≤ v.toInt ∧ v.toInt < 2 ^ 20) ∧ v.getLsbD 0 = false := by
  rw [← toNat_even_iff]
  have := @toInt_even v
  simp only [fitsImmJ, decide_eq_true_eq]
  omega

theorem fitsImm12_immI (iw : Word) : fitsImm12 (immI iw) = true :=
  (fitsImm12_iff _).mpr (toInt_signExtend_bounds (by omega) _)

theorem fitsImm12_immS (iw : Word) : fitsImm12 (immS iw) = true :=
  (fitsImm12_iff _).mpr (toInt_signExtend_bounds (by omega) _)

theorem fitsImmB_immB (iw : Word) : fitsImmB (immB iw) = true :=
  (fitsImmB_iff _).mpr ⟨toInt_signExtend_bounds (by omega) _, Machine.immB_even iw⟩

theorem fitsImmU_immU (iw : Word) : fitsImmU (immU iw) = true := by
  rw [fitsImmU, immU, toNat_append_eq]
  simp

theorem fitsImmJ_immJ (iw : Word) : fitsImmJ (immJ iw) = true :=
  (fitsImmJ_iff _).mpr ⟨toInt_signExtend_bounds (by omega) _, Machine.immJ_even iw⟩

/-! ### The round trips

Each encoder's columns hold consecutive parts of the value, so the decoder's concatenation is the value's low bits. -/

section RoundTrips

variable {v : Word} (f3 : BitVec 3) (op : BitVec 7) (r r' : RegIdx)

/-- The bits that I and S carry. -/
theorem signExtend_low12 (h : fitsImm12 v = true) :
    (v.extractLsb' 5 7 ++ v.extractLsb' 0 5 : BitVec 12).signExtend 32 = v := by
  obtain ⟨hlow, hhigh⟩ := (fitsImm12_iff v).mp h
  rw [show (v.extractLsb' 5 7 ++ v.extractLsb' 0 5 : BitVec 12) = v.extractLsb' 0 12 from extract_append v 0 5 7]
  exact signExtend_extract_of_bounds (by omega) hlow hhigh

theorem immI_encodeI (h : fitsImm12 v = true) : immI (encodeI f3 op r r' v) = v := by
  rw [encodeI, immI_columns, funct7_packWord, rs2Field_packWord, signExtend_low12 h]

theorem immS_encodeS (h : fitsImm12 v = true) : immS (encodeS f3 op r r' v) = v := by
  rw [encodeS, immS_columns, funct7_packWord, rdField_packWord, signExtend_low12 h]

theorem extract_low_bit (h : v.getLsbD 0 = false) : v.extractLsb' 0 1 = 0#1 := by
  apply BitVec.eq_of_getLsbD_eq
  intro i hi
  obtain rfl : i = 0 := by omega
  simpa using h

theorem immB_encodeB (h : fitsImmB v = true) : immB (encodeB f3 op r r' v) = v := by
  obtain ⟨⟨hlow, hhigh⟩, heven⟩ := (fitsImmB_iff v).mp h
  rw [encodeB, immB_columns, funct7_packWord, rdField_packWord, ← extract_low_bit heven,
    extract_append_high (v.extractLsb' 12 1) (v.extractLsb' 5 6),
    extract_append_low (v.extractLsb' 12 1) (v.extractLsb' 5 6),
    extract_append_high (v.extractLsb' 1 4) (v.extractLsb' 11 1),
    extract_append_low (v.extractLsb' 1 4) (v.extractLsb' 11 1),
    extract_append v 11 1 1, extract_append v 5 6 2, extract_append v 1 4 8, extract_append v 0 1 12]
  exact signExtend_extract_of_bounds (by omega) hlow hhigh

theorem immU_encodeU (h : fitsImmU v = true) : immU (encodeU op r v) = v := by
  have hzero : v.extractLsb' 0 12 = 0#12 := by
    apply BitVec.eq_of_toNat_eq
    simpa [fitsImmU] using h
  rw [encodeU, immU_columns, funct7_packWord, rs2Field_packWord, rs1Field_packWord, funct3_packWord, ← hzero,
    extract_append v 20 5 7, extract_append v 15 5 12, extract_append v 12 3 17, extract_append v 0 12 20]
  exact BitVec.extractLsb'_eq_self

theorem immJ_encodeJ (h : fitsImmJ v = true) : immJ (encodeJ op r v) = v := by
  obtain ⟨⟨hlow, hhigh⟩, heven⟩ := (fitsImmJ_iff v).mp h
  rw [encodeJ, immJ_columns, funct7_packWord, rs1Field_packWord, rs2Field_packWord, funct3_packWord,
    ← extract_low_bit heven,
    extract_append_high (v.extractLsb' 20 1) (v.extractLsb' 5 6),
    extract_append_low (v.extractLsb' 20 1) (v.extractLsb' 5 6),
    extract_append_high (v.extractLsb' 1 4) (v.extractLsb' 11 1),
    extract_append_low (v.extractLsb' 1 4) (v.extractLsb' 11 1),
    extract_append v 12 3 5, extract_append v 12 8 1, extract_append v 11 1 9, extract_append v 1 4 6,
    extract_append v 1 10 10, extract_append v 0 1 20]
  exact signExtend_extract_of_bounds (by omega) hlow hhigh

end RoundTrips

/-- Settles O4: the bits, the mask, the ranges and the round trips of the five formats. -/
theorem immediatesAreTheirBits : Obligations.ImmediatesAreTheirBits :=
  ⟨fun w _ hi => ⟨immI_bit w hi, immS_bit w hi, immB_bit w hi, immU_bit w hi, immJ_bit w hi⟩,
    immU_eq_and,
    fun w => ⟨fitsImm12_immI w, fitsImm12_immS w, fitsImmB_immB w, fitsImmU_immU w, fitsImmJ_immJ w⟩,
    fun _ f3 op r r' => ⟨fun h => ⟨immI_encodeI f3 op r r' h, immS_encodeS f3 op r r' h⟩,
      immB_encodeB f3 op r r', immU_encodeU op r, immJ_encodeJ op r⟩⟩

end Sys2Proof
end

section
/-! PROOFS. Which words the decoder recognises, opcode by opcode (spec/30_encoding.md R73 to R76): the Invalid space
(O6) and how strictly funct7 is matched (O7). -/

namespace Sys2Proof

/-! ### When a classification rejects -/

theorem isOk_ok (i : Instr) : (Except.ok i : Except Reject Instr).isOk = true := rfl

theorem isOk_error (e : Reject) : (Except.error e : Except Reject Instr).isOk = false := rfl

/-- A test between two classifications rejects on the side it takes. -/
theorem isOk_ite_eq_false (c : Prop) [Decidable c] (a b : Except Reject Instr) :
    (if c then a else b).isOk = false ↔ (c → a.isOk = false) ∧ (¬ c → b.isOk = false) := by
  split <;> simp [*]

/-! ### The Invalid words of each opcode (R76)

Each part of the decoder tests funct3 and funct7 in a chain; what is left to show is that funct3 has eight values. -/

section Opcodes

variable {iw : Word}

theorem recognised_of_upper_or_jal
    (hop : opcode iw = 0b0110111#7 ∨ opcode iw = 0b0010111#7 ∨ opcode iw = 0b1101111#7) : recognised iw = true := by
  rcases hop with hop | hop | hop <;> simp [recognised, decode, hop, isOk_ok]

theorem not_recognised_jalr_iff (hop : opcode iw = 0b1100111#7) :
    recognised iw = false ↔ funct3 iw ≠ 0b000#3 := by
  simp [recognised, decode, hop, isOk_ite_eq_false, isOk_ok, isOk_error]

theorem not_recognised_branch_iff (hop : opcode iw = 0b1100011#7) :
    recognised iw = false ↔ funct3 iw = 0b010#3 ∨ funct3 iw = 0b011#3 := by
  have hdecode : decode iw = decodeBranch iw := by simp [decode, hop]
  simp only [recognised, hdecode, decodeBranch, isOk_ite_eq_false, isOk_ok, isOk_error]
  grind

theorem not_recognised_load_iff (hop : opcode iw = 0b0000011#7) :
    recognised iw = false ↔ funct3 iw = 0b011#3 ∨ funct3 iw = 0b110#3 ∨ funct3 iw = 0b111#3 := by
  have hdecode : decode iw = decodeLoad iw := by simp [decode, hop]
  simp only [recognised, hdecode, decodeLoad, isOk_ite_eq_false, isOk_ok, isOk_error]
  grind

theorem not_recognised_store_iff (hop : opcode iw = 0b0100011#7) :
    recognised iw = false ↔ 3 ≤ (funct3 iw).toNat := by
  have hdecode : decode iw = decodeStore iw := by simp [decode, hop]
  simp only [recognised, hdecode, decodeStore, isOk_ite_eq_false, isOk_ok, isOk_error]
  generalize funct3 iw = f3
  revert f3
  decide

theorem not_recognised_aluImmediate_iff (hop : opcode iw = 0b0010011#7) :
    recognised iw = false ↔ (funct3 iw = 0b001#3 ∧ funct7 iw ≠ 0b0000000#7) ∨
      (funct3 iw = 0b101#3 ∧ funct7 iw ≠ 0b0000000#7 ∧ funct7 iw ≠ 0b0100000#7) := by
  have hdecode : decode iw = decodeAluImmediate iw := by simp [decode, hop]
  simp only [recognised, hdecode, decodeAluImmediate, isOk_ite_eq_false, isOk_ok, isOk_error]
  grind

theorem not_recognised_aluRegister_iff (hop : opcode iw = 0b0110011#7) :
    recognised iw = false ↔
      ((funct3 iw = 0b000#3 ∨ funct3 iw = 0b101#3) ∧ funct7 iw ≠ 0b0000000#7 ∧ funct7 iw ≠ 0b0100000#7) ∨
      (funct3 iw ≠ 0b000#3 ∧ funct3 iw ≠ 0b101#3 ∧ funct7 iw ≠ 0b0000000#7) := by
  have hdecode : decode iw = decodeAluRegister iw := by simp [decode, hop]
  simp only [recognised, hdecode, decodeAluRegister, isOk_ite_eq_false, isOk_ok, isOk_error]
  grind

/-- The nine opcodes of R74. -/
def opcodes : List (BitVec 7) :=
  [0b0110111#7, 0b0010111#7, 0b1101111#7, 0b1100111#7, 0b1100011#7, 0b0000011#7, 0b0100011#7, 0b0010011#7,
    0b0110011#7]

theorem not_recognised_of_opcode (hop : opcode iw ∉ opcodes) : recognised iw = false := by
  simp only [opcodes, List.mem_cons, List.not_mem_nil, or_false, not_or] at hop
  simp [recognised, decode, hop, isOk_error]

end Opcodes

/-! ### The Invalid space (R73, R76) -/

/-- The two descriptions of the opcode map recognise the same words. -/
theorem recognised_iff_match (iw : Word) :
    recognised iw = true ↔ ∃ r ∈ opcodeTable, r.matchesWord iw = true := by
  constructor
  · intro h
    cases hdecode : decode iw with
    | ok i =>
      obtain ⟨hmatch, -⟩ := decode_ok hdecode
      exact ⟨i.row, row_mem i, hmatch⟩
    | error e => simp [recognised, hdecode, isOk_error] at h
  · rintro ⟨r, hr, hmatch⟩
    exact recognised_of_match hr hmatch

/-- An Invalid word, executed, changes nothing (48_invalid_and_system R210). -/
theorem runWord_of_not_recognised {iw : Word} (h : recognised iw = false) (s : Machine.State) :
    Machine.runWord iw s = .next s := by
  cases hdecode : decode iw with
  | ok i => simp [recognised, hdecode, isOk_ok] at h
  | error e => rw [Machine.runWord, hdecode]; rfl

/-- Settles O6: opcode by opcode the Invalid words are those of the enumeration's conditions on funct3 and funct7. -/
theorem invalidSpaceEnumerated : Obligations.InvalidSpaceEnumerated := by
  intro w
  refine ⟨?rows, ?conditions, runWord_of_not_recognised⟩
  case rows =>
    rw [← Bool.not_eq_true, recognised_iff_match]
    simp
  case conditions =>
    by_cases hmem : opcode w ∈ opcodes
    · simp only [opcodes, List.mem_cons, List.not_mem_nil, or_false] at hmem
      rcases hmem with hop | hop | hop | hop | hop | hop | hop | hop | hop
      iterate 3 · simp [recognised_of_upper_or_jal, hop]
      · simp [not_recognised_jalr_iff hop, hop]
      · simp [not_recognised_branch_iff hop, hop]
      · simp [not_recognised_load_iff hop, hop]
      · simp [not_recognised_store_iff hop, hop]
      · simp [not_recognised_aluImmediate_iff hop, hop]
      · simp [not_recognised_aluRegister_iff hop, hop]
    · exact iff_of_true (not_recognised_of_opcode hmem) (.inl hmem)

/-! ### funct7 (R75) -/

/-- funct7 is bit 31, bit 30 and bits 29:25. -/
theorem funct7_bits (iw : Word) :
    funct7 iw = BitVec.ofBool (iw.getLsbD 31) ++ BitVec.ofBool (iw.getLsbD 30) ++ iw.extractLsb' 25 5 := by
  apply BitVec.eq_of_getLsbD_eq
  intro i hi
  simp only [funct7, BitVec.getLsbD_append, BitVec.getLsbD_extractLsb']
  interval_cases i <;> simp

/-- When funct7 is all zero but for bit 30. -/
theorem funct7_eq_iff (iw : Word) (b : Bool) :
    funct7 iw = (if b then 0b0100000#7 else 0b0000000#7) ↔
      iw.getLsbD 31 = false ∧ iw.extractLsb' 25 5 = 0b00000#5 ∧ iw.getLsbD 30 = b := by
  rw [funct7_bits]
  generalize iw.getLsbD 31 = b31
  generalize iw.getLsbD 30 = b30
  generalize iw.extractLsb' 25 5 = low
  revert b31 b30 low b
  decide

/-- An encoding with a funct7 is Invalid if one of the bits 31 and 29:25 is set, or bit 30 where there is no variant. -/
theorem not_recognised_funct7_iff {iw : Word}
    (h : opcode iw = 0b0110011#7 ∨ opcode iw = 0b0010011#7 ∧ (funct3 iw = 0b001#3 ∨ funct3 iw = 0b101#3)) :
    recognised iw = false ↔ (iw.getLsbD 31 = true ∨ iw.extractLsb' 25 5 ≠ 0b00000#5) ∨
      (iw.getLsbD 30 = true ∧ ¬ ((opcode iw = 0b0110011#7 ∧ funct3 iw = 0b000#3) ∨ funct3 iw = 0b101#3)) := by
  have hzero := funct7_eq_iff iw false
  have hvariant := funct7_eq_iff iw true
  simp only [if_true, Bool.false_eq_true, if_false] at hzero hvariant
  rcases h with hop | ⟨hop, hshift⟩
  · rw [not_recognised_aluRegister_iff hop, Ne, Ne, hzero, hvariant]
    grind
  · rw [not_recognised_aluImmediate_iff hop, Ne, Ne, hzero, hvariant]
    grind

/-- Settles O7: the three clauses read off which bits of funct7 make a word Invalid. -/
theorem funct7IsMatchedStrictly : Obligations.Funct7IsMatchedStrictly := by
  intro w
  refine ⟨fun h => ⟨?bitsSet, ?plain, ?bit30⟩, ?noFunct7⟩
  case bitsSet => exact fun hset => (not_recognised_funct7_iff h).mpr (.inl hset)
  case plain =>
    intro h31 hlow h30
    rw [← Bool.not_eq_false, not_recognised_funct7_iff h, h31, hlow, h30]
    simp
  case bit30 =>
    intro h31 hlow h30
    rw [← Bool.not_eq_false, not_recognised_funct7_iff h, h31, hlow, h30]
    tauto
  case noFunct7 =>
    intro hop h1 h5
    rw [← Bool.not_eq_false, not_recognised_aluImmediate_iff hop]
    simp [h1, h5]

end Sys2Proof
end

section
/-! PROOFS. The step and the instruction it runs (O35; spec/40_execute_common.md R100, R101). -/

namespace Sys2Proof.Machine

/-- A word that decodes is executed as its instruction (R100). -/
theorem runWord_of_ok {iw : Word} {i : Instr} (h : decode iw = .ok i) (s : State) : runWord iw s = exec i s := by
  rw [runWord, h]

/-- A word that does not decode changes nothing (48_invalid_and_system R210). -/
theorem runWord_of_error {iw : Word} {r : Reject} (h : decode iw = .error r) (s : State) :
    runWord iw s = .next s := by
  rw [runWord, h]
  rfl

/-- A legal build runs the fetched word on the state after the fetch (R100). -/
theorem step_of_legalBuild {s : State} (hlegal : legalBuild s.cfg = true) :
    step s = runWord s.fetchWord s.afterFetch := if_pos hlegal

/-- In the window the fetched word is the four bytes of the aligned word that holds `pc` (R101). -/
theorem fetchWord_of_inWindow {s : State} (hlegal : legalBuild s.cfg = true) (hpc : inWindow s.cfg s.pc = true) :
    s.fetchWord = Memory.readWord s.mem (s.pc.toNat / 4 * 4) := by
  rw [State.fetchWord, readWord_of_inWindow hpc, wordKey_eq hlegal hpc, wordAlign_toNat]

/-- Settles O35: the step runs the fetched word, by the case of what it decodes to; the fetch reads the aligned word. -/
theorem stepRunsTheDecodedInstruction : Obligations.StepRunsTheDecodedInstruction := by
  intro s hlegal
  rw [step_of_legalBuild hlegal]
  exact ⟨fun _ hdecode => runWord_of_ok hdecode _, fun _ hdecode => runWord_of_error hdecode _,
    fun hpc => ⟨afterRead_of_inWindow hpc, fetchWord_of_inWindow hlegal hpc⟩⟩

end Sys2Proof.Machine
end

section
/-! PROOFS. LUI and AUIPC (O9; spec/41_upper_immediate.md), with the two steps that every result statement takes: from
a row's mask to the columns of the word, and from a write-back to a register result. -/

namespace Sys2Proof.Machine

/-- A row that tests the opcode alone is encoded when the words of its opcode decode to the instruction (R74). -/
theorem encodedBy_of_opcode {p : Word} {build : Word → Instr}
    (h : ∀ w : Word, opcode w = opcode p → decode w = .ok (build w)) : EncodedBy 0x0000007F#32 p build :=
  fun w hw => h w (columns_of_match_opcode hw)

/-- An instruction that ends in a write-back writes that value and leaves the rest (40_execute_common R104). -/
theorem writesRegister_of_writeBack {i : Instr} {s : State} {rd : RegIdx} {v : Word} {value : Word → Prop}
    (hexec : exec i s = .next (s.writeBack rd v)) (hv : value v) : WritesRegister i s rd value :=
  ⟨_, v, hexec, hv, registerResult_writeBack s rd v⟩

/-- The words of the opcode of LUI (R120). -/
theorem decode_of_opcode_lui {w : Word} (hop : opcode w = 0b0110111#7) : decode w = .ok (.lui (rdField w) (immU w)) :=
  if_pos hop

/-- The words of the opcode of AUIPC (R121). -/
theorem decode_of_opcode_auipc {w : Word} (hop : opcode w = 0b0010111#7) :
    decode w = .ok (.auipc (rdField w) (immU w)) := by
  simp [decode, hop]

/-- Settles O9: the opcode alone selects each row, and both instructions are a write-back. -/
theorem upperImmediateResults : Obligations.UpperImmediateResults := by
  refine ⟨encodedBy_of_opcode fun w hop => ?_, encodedBy_of_opcode fun w hop => ?_, fun rd imm s => ⟨?_, ?_⟩⟩
  · rw [← immU_eq_and]
    exact decode_of_opcode_lui hop
  · rw [← immU_eq_and]
    exact decode_of_opcode_auipc hop
  · exact writesRegister_of_writeBack rfl rfl
  · exact writesRegister_of_writeBack rfl (BitVec.toNat_add imm s.pc)

end Sys2Proof.Machine
end

section
/-! PROOFS. JAL and JALR (O10; spec/42_jumps.md), with the step from a row's mask that tests funct3 to the columns of
the word, which the rows of later statements share. -/

namespace Sys2Proof.Machine

/-- A row that tests the opcode and funct3 is encoded when the words of both decode to the instruction (R74). -/
theorem encodedBy_of_funct3 {p : Word} {build : Word → Instr}
    (h : ∀ w : Word, opcode w = opcode p → funct3 w = funct3 p → decode w = .ok (build w)) :
    EncodedBy 0x0000707F#32 p build := by
  intro w hw
  obtain ⟨hfunct3, hop⟩ := columns_of_match_funct3 hw
  exact h w hop hfunct3

/-- The words of the opcode of JAL (R130). -/
theorem decode_of_opcode_jal {w : Word} (hop : opcode w = 0b1101111#7) :
    decode w = .ok (.jal (rdField w) (immJ w)) := by
  simp [decode, hop]

/-- The words of the opcode of JALR with its funct3 (R131). -/
theorem decode_of_columns_jalr {w : Word} (hop : opcode w = 0b1100111#7) (hfunct3 : funct3 w = 0b000#3) :
    decode w = .ok (.jalr (rdField w) (rs1Field w) (immI w)) := by
  simp [decode, hop, hfunct3]

/-- Clearing bit 0 rounds down to an even number (R131): it shifts the bit out and a zero in. -/
theorem clear_bit_0_toNat (x : Word) : (x &&& 0xFFFFFFFE#32).toNat = x.toNat / 2 * 2 := by
  have hshift : x &&& 0xFFFFFFFE#32 = x >>> 1 <<< 1 := (BitVec.shiftLeft_ushiftRight (x := x) (n := 1)).symm
  rw [hshift, BitVec.toNat_shiftLeft, BitVec.toNat_ushiftRight, Nat.shiftRight_eq_div_pow, Nat.shiftLeft_eq]
  omega

/-- Settles O10: the columns select each row, and both instructions link and jump; the target of JALR is a sum of old
values, rounded down to even. -/
theorem jumpResults : Obligations.JumpResults := by
  refine ⟨encodedBy_of_opcode fun _ => decode_of_opcode_jal, encodedBy_of_funct3 fun _ => decode_of_columns_jalr,
    fun w hop hfunct3 => (not_recognised_jalr_iff hop).mpr hfunct3, fun rd rs1 imm s => ⟨?jal, ?jalr⟩⟩
  case jal => exact ⟨_, rfl, registerResult_linkAndJump s rd (s.pc + imm)⟩
  case jalr =>
    have htarget : (s.effAddr rs1 imm &&& 0xFFFFFFFE#32).toNat =
        ((s.readReg rs1).toNat + imm.toNat) % 2 ^ 32 / 2 * 2 := by
      rw [clear_bit_0_toNat, State.effAddr, BitVec.toNat_add]
    exact ⟨_, _, rfl, htarget, registerResult_linkAndJump s rd _⟩

end Sys2Proof.Machine
end

section
/-! PROOFS. The six branches (O11, O12, O13; spec/43_branches.md), with what each comparison says of its operands as
numbers (spec/40_execute_common.md R109), which the set-less-than instructions share. -/

namespace Sys2Proof.Machine

/-! ### The comparisons (R109) -/

theorem ltSigned_iff (a b : Word) : ltSigned a b = true ↔ a.toInt < b.toInt := BitVec.slt_iff_toInt_lt

theorem ltUnsigned_iff (a b : Word) : ltUnsigned a b = true ↔ a.toNat < b.toNat := BitVec.ult_iff_toNat_lt

theorem geSigned_iff (a b : Word) : geSigned a b = true ↔ b.toInt ≤ a.toInt := by
  rw [geSigned, Bool.not_eq_true', ← Bool.not_eq_true, ltSigned_iff, Int.not_lt]

theorem geUnsigned_iff (a b : Word) : geUnsigned a b = true ↔ b.toNat ≤ a.toNat := by
  rw [geUnsigned, Bool.not_eq_true', ← Bool.not_eq_true, ltUnsigned_iff, Nat.not_lt]

/-! ### What the six branches share -/

/-- The words of the branch opcode are classified by funct3 (30_encoding R74). -/
theorem decode_of_opcode_branch {w : Word} (hop : opcode w = 0b1100011#7) : decode w = decodeBranch w := by
  simp [decode, hop]

/-- A row of the branch opcode is encoded when the words of its funct3 are classified as the instruction. -/
theorem encodedBy_of_decodeBranch {p : Word} {build : Word → Instr} (f3 : BitVec 3)
    (hp : opcode p = 0b1100011#7 ∧ funct3 p = f3) (h : ∀ w : Word, funct3 w = f3 → decodeBranch w = .ok (build w)) :
    EncodedBy 0x0000707F#32 p build := by
  obtain ⟨hop, hfunct3⟩ := hp
  refine encodedBy_of_funct3 fun w hwop hw => ?_
  rw [decode_of_opcode_branch (hwop.trans hop), h w (hw.trans hfunct3)]

/-- An instruction that ends in a branch only jumps: to its displacement if the condition it decides holds, else to
the next instruction. -/
theorem onlyJumps_of_branch {i : Instr} {s : State} {c : Bool} {imm : Word} {taken : Prop} [Decidable taken]
    (hexec : exec i s = .next (s.branch c imm)) (hc : c = true ↔ taken) :
    OnlyJumps i s (if taken then s.pc + imm else s.pc + 4#32) := by
  refine ⟨_, hexec, ?_⟩
  simpa only [hc] using jumpResult_branch s c imm

/-! ### The three pairs -/

/-- Settles O11: funct3 selects each row, and the conditions are the equality of the operands and its negation. -/
theorem equalityBranchResults : Obligations.EqualityBranchResults := by
  refine ⟨encodedBy_of_decodeBranch 0b000#3 ⟨rfl, rfl⟩ fun w hfunct3 => ?_,
    encodedBy_of_decodeBranch 0b001#3 ⟨rfl, rfl⟩ fun w hfunct3 => ?_,
    fun rs1 rs2 imm s => ⟨onlyJumps_of_branch rfl beq_iff_eq, onlyJumps_of_branch rfl bne_iff_ne⟩⟩
  all_goals simp [decodeBranch, hfunct3]

/-- Settles O12: funct3 selects each row, and the conditions are the signed comparison and its complement. -/
theorem signedBranchResults : Obligations.SignedBranchResults := by
  refine ⟨encodedBy_of_decodeBranch 0b100#3 ⟨rfl, rfl⟩ fun w hfunct3 => ?_,
    encodedBy_of_decodeBranch 0b101#3 ⟨rfl, rfl⟩ fun w hfunct3 => ?_,
    fun rs1 rs2 imm s => ⟨onlyJumps_of_branch rfl (ltSigned_iff ..), onlyJumps_of_branch rfl (geSigned_iff ..)⟩⟩
  all_goals simp [decodeBranch, hfunct3]

/-- Settles O13: funct3 selects each row, and the conditions are the unsigned comparison and its complement. -/
theorem unsignedBranchResults : Obligations.UnsignedBranchResults := by
  refine ⟨encodedBy_of_decodeBranch 0b110#3 ⟨rfl, rfl⟩ fun w hfunct3 => ?_,
    encodedBy_of_decodeBranch 0b111#3 ⟨rfl, rfl⟩ fun w hfunct3 => ?_,
    fun rs1 rs2 imm s => ⟨onlyJumps_of_branch rfl (ltUnsigned_iff ..), onlyJumps_of_branch rfl (geUnsigned_iff ..)⟩⟩
  all_goals simp [decodeBranch, hfunct3]

end Sys2Proof.Machine
end

section
/-! PROOFS. The five loads (O14, O15, O16; spec/44_loads.md). In a legal build the channel returns the word that the
statements assemble from the bytes of memory; each load selects from it and ends in `finishLoad`. -/

namespace Sys2Proof.Machine

/-! ### The rows -/

/-- A row of an opcode whose words one classifier decides is encoded when the classifier makes the instruction of the
words of its funct3 (30_encoding R74). -/
theorem encodedBy_of_classifier {p : Word} {build : Word → Instr} {op : BitVec 7}
    {classify : Word → Except Reject Instr} (hdecode : ∀ w : Word, opcode w = op → decode w = classify w)
    (f3 : BitVec 3) (hp : opcode p = op ∧ funct3 p = f3) (h : ∀ w : Word, funct3 w = f3 → classify w = .ok (build w)) :
    EncodedBy 0x0000707F#32 p build := by
  obtain ⟨hop, hfunct3⟩ := hp
  refine encodedBy_of_funct3 fun w hwop hw => ?_
  rw [hdecode w (hwop.trans hop), h w (hw.trans hfunct3)]

/-- The words of the load opcode are classified by funct3 (30_encoding R74). -/
theorem decode_of_opcode_load (w : Word) (hop : opcode w = 0b0000011#7) : decode w = decodeLoad w := by
  simp [decode, hop]

/-! ### What the loads read (20_memory R46) -/

section Legal
variable {s : State} (hlegal : legalBuild s.cfg = true) (ea : Word)
include hlegal

/-- The channel at the aligned address returns the four bytes there in the window, the free value outside it. -/
theorem readWord_wordAlign_eq_loadedWord : s.readWord (wordAlign ea) = loadedWord s ea := by
  cases hw : inWindow s.cfg (wordAlign ea) with
  | true =>
    have hkey : wordKey s.cfg (wordAlign ea) = ea.toNat / 4 * 4 := by
      rw [wordKey_eq hlegal hw, wordAlign_wordAlign, wordAlign_toNat]
    rw [readWord_of_inWindow hw, hkey, loadedWord, if_pos hw]
    rfl
  | false =>
    rw [readWord_of_not_inWindow hw, loadedWord, hw]
    rfl

theorem memRead1_eq : s.memRead1 ea = (loadedWord s ea).extractLsb' (8 * (ea.toNat % 4)) 8 := by
  rw [State.memRead1, selectByte, byteLane_eq, readWord_wordAlign_eq_loadedWord hlegal]

theorem memRead2_eq : s.memRead2 ea = (loadedWord s ea).extractLsb' (16 * (ea.toNat / 2 % 2)) 16 := by
  rw [State.memRead2, selectHalf, halfLane_eq, readWord_wordAlign_eq_loadedWord hlegal]

theorem memRead4_eq : s.memRead4 ea = loadedWord s ea := readWord_wordAlign_eq_loadedWord hlegal ea

end Legal

/-- An instruction that ends as a load does loads the value it obtained. -/
theorem loadsRegister_of_finishLoad {i : Instr} {s : State} {rd : RegIdx} {ea v v' : Word}
    (hexec : exec i s = .next (s.finishLoad rd ea v)) (hv : v = v') : LoadsRegister i s rd ea v' :=
  ⟨_, hexec, hv ▸ finishLoad_result s rd ea v⟩

/-! ### The three widths -/

/-- Settles O14: funct3 selects each row, and both loads extend the byte that `memRead1` selects. -/
theorem byteLoadResults : Obligations.ByteLoadResults := by
  refine ⟨encodedBy_of_classifier decode_of_opcode_load 0b000#3 ⟨rfl, rfl⟩ fun w hfunct3 => ?_,
    encodedBy_of_classifier decode_of_opcode_load 0b100#3 ⟨rfl, rfl⟩ fun w hfunct3 => ?_,
    fun rd rs1 imm s hlegal =>
      have hbyte := memRead1_eq hlegal (s.effAddr rs1 imm)
      ⟨loadsRegister_of_finishLoad rfl (congrArg (·.signExtend 32) hbyte),
        loadsRegister_of_finishLoad rfl (congrArg (·.zeroExtend 32) hbyte)⟩⟩
  all_goals simp [decodeLoad, hfunct3]

/-- Settles O15: funct3 selects each row, and both loads extend the half-word that `memRead2` selects. -/
theorem halfLoadResults : Obligations.HalfLoadResults := by
  refine ⟨encodedBy_of_classifier decode_of_opcode_load 0b001#3 ⟨rfl, rfl⟩ fun w hfunct3 => ?_,
    encodedBy_of_classifier decode_of_opcode_load 0b101#3 ⟨rfl, rfl⟩ fun w hfunct3 => ?_,
    fun rd rs1 imm s hlegal =>
      have hhalf := memRead2_eq hlegal (s.effAddr rs1 imm)
      ⟨loadsRegister_of_finishLoad rfl (congrArg (·.signExtend 32) hhalf),
        loadsRegister_of_finishLoad rfl (congrArg (·.zeroExtend 32) hhalf)⟩⟩
  all_goals simp [decodeLoad, hfunct3]

/-- Settles O16: funct3 selects the row, and the load obtains the whole word that `memRead4` returns. -/
theorem wordLoadResult : Obligations.WordLoadResult := by
  refine ⟨encodedBy_of_classifier decode_of_opcode_load 0b010#3 ⟨rfl, rfl⟩ fun w hfunct3 => ?_,
    fun rd rs1 imm s hlegal => loadsRegister_of_finishLoad rfl (memRead4_eq hlegal (s.effAddr rs1 imm))⟩
  simp [decodeLoad, hfunct3]

end Sys2Proof.Machine
end

section
/-! PROOFS. The three stores (O17, O18, O19; spec/45_stores.md). Each ends in one channel write at the aligned address;
what is left of each is which lanes it enables and which bytes of the register stand in them. -/

namespace Sys2Proof.Machine

/-! ### What the three stores share -/

/-- The words of the store opcode are classified by funct3 (30_encoding R74). -/
theorem decode_of_opcode_store (w : Word) (hop : opcode w = 0b0100011#7) : decode w = decodeStore w := by
  simp [decode, hop]

/-- An instruction that ends in a channel write at the aligned address stores bytes: on the port lane 0 if it is
enabled, in the window the enabled lanes of the aligned word (20_memory R39, R40, R43). -/
theorem storesBytes_of_writeWord {i : Instr} {s : State} {ea d : Word} {be : ByteEnable} {emitted : List Byte}
    {stored : Nat → Option Byte} (hlegal : legalBuild s.cfg = true)
    (hexec : exec i s = .next (s.writeWord (wordAlign ea) be d).advance)
    (hemitted : wordAlign ea = s.cfg.outAddr → emitted = if be.getLsbD 0 then [lane d 0] else [])
    (hinside : ∀ j, j < 4 → stored (ea.toNat / 4 * 4 + j) = if be.getLsbD j then some (lane d j) else none)
    (houtside : ∀ n, ¬ (ea.toNat / 4 * 4 ≤ n ∧ n < ea.toNat / 4 * 4 + 4) → stored n = none) :
    StoresBytes i s ea emitted stored := by
  refine ⟨_, hexec, fun _ => by simp, by simp, by simp, by simp, ?_⟩
  rw [advance_output, MemKept, advance_mem]
  split
  case isTrue ho =>
    obtain ⟨hmem, hout⟩ := writeWord_outAddr s be d
    rw [ho, hemitted ho, hmem]
    exact ⟨fun _ => rfl, hout⟩
  case isFalse ho =>
    cases hw : inWindow s.cfg (wordAlign ea) with
    | false =>
      rw [writeWord_elsewhere ho hw]
      exact ⟨rfl, fun _ => rfl⟩
    | true =>
      obtain ⟨hout, hbytes⟩ := writeWord_of_aligned hlegal hw (by rw [wordAlign_toNat]; omega) be d
      refine ⟨hout, fun n => ?_⟩
      rw [hbytes, wordAlign_toNat]
      by_cases hn : ea.toNat / 4 * 4 ≤ n ∧ n < ea.toNat / 4 * 4 + 4
      · obtain ⟨j, rfl⟩ := Nat.exists_eq_add_of_le hn.1
        have hj : j < 4 := by omega
        rw [hinside j hj, Nat.add_sub_cancel_left]
        cases be.getLsbD j <;> simp [hj]
      · rw [houtside n hn, if_neg fun ⟨hlow, hhigh, _⟩ => hn ⟨hlow, hhigh⟩]
        rfl

/-! ### The enabled lanes as addresses (20_memory R47) -/

/-- A byte store enables the lane of its address. -/
theorem byteEnable1_iff (ea : Word) {j : Nat} (hj : j < 4) :
    (byteEnable1 ea).getLsbD j = true ↔ ea.toNat / 4 * 4 + j = ea.toNat := by
  rw [byteEnable1_bit ea hj, decide_eq_true_eq]
  omega

/-- A half store enables the lanes of the half that holds its address. -/
theorem byteEnable2_iff (ea : Word) {j : Nat} (hj : j < 4) :
    (byteEnable2 ea).getLsbD j = true ↔ (ea.toNat / 4 * 4 + j) / 2 = ea.toNat / 2 := by
  rw [byteEnable2_bit ea hj, decide_eq_true_eq]
  omega

/-! ### The three widths -/

/-- Settles O17: the one enabled lane is that of the address, and every lane of the data is the register's low byte. -/
theorem byteStoreResult : Obligations.ByteStoreResult := by
  refine ⟨encodedBy_of_classifier decode_of_opcode_store 0b000#3 ⟨rfl, rfl⟩ fun w hfunct3 => ?row,
    fun rs1 rs2 imm s hlegal => storesBytes_of_writeWord hlegal rfl (fun ho => ?emitted) (fun j hj => ?inside)
      fun n hn => if_neg (by omega)⟩
  case row => simp [decodeStore, hfunct3]
  case emitted =>
    obtain ⟨-, -, haligned, -, -⟩ := (legalBuild_iff s.cfg).mp hlegal
    have hlane := byteEnable1_at_sentinel haligned (s.effAddr rs1 imm)
    rw [lane_replicateByte _ (by omega)]
    exact if_congr (hlane.symm.trans (and_iff_right ho)) rfl rfl
  case inside =>
    rw [lane_replicateByte _ hj]
    exact if_congr (byteEnable1_iff _ hj).symm rfl rfl

/-- Settles O18: the two enabled lanes are those of the half that bit 1 of the address selects, and lane `j` of the data
is byte `j % 2` of the register. -/
theorem halfStoreResult : Obligations.HalfStoreResult := by
  refine ⟨encodedBy_of_classifier decode_of_opcode_store 0b001#3 ⟨rfl, rfl⟩ fun w hfunct3 => ?row,
    fun rs1 rs2 imm s hlegal => storesBytes_of_writeWord hlegal rfl (fun _ => ?emitted) (fun j hj => ?inside)
      fun n hn => ?outside⟩
  case row => simp [decodeStore, hfunct3]
  case emitted =>
    rw [lane_replicateHalf _ (by omega)]
    have hlane := byteEnable2_iff (s.readReg rs1 + imm) (j := 0) (by omega)
    exact if_congr (Iff.trans (by omega) hlane.symm) rfl rfl
  case inside =>
    have hlane := byteEnable2_iff (s.readReg rs1 + imm) hj
    rw [lane_replicateHalf _ hj]
    rcases Nat.mod_two_eq_zero_or_one j with heven | hodd
    · have hnotSecond : (s.readReg rs1 + imm).toNat / 4 * 4 + j ≠ (s.readReg rs1 + imm).toNat / 2 * 2 + 1 := by omega
      rw [heven, if_neg hnotSecond]
      exact if_congr (Iff.trans (by omega) hlane.symm) rfl rfl
    · have hnotFirst : (s.readReg rs1 + imm).toNat / 4 * 4 + j ≠ (s.readReg rs1 + imm).toNat / 2 * 2 := by omega
      rw [hodd, if_neg hnotFirst]
      exact if_congr (Iff.trans (by omega) hlane.symm) rfl rfl
  case outside => rw [if_neg (by omega), if_neg (by omega)]

/-- Settles O19: all four lanes are enabled, and the data is the register. -/
theorem wordStoreResult : Obligations.WordStoreResult := by
  refine ⟨encodedBy_of_classifier decode_of_opcode_store 0b010#3 ⟨rfl, rfl⟩ fun w hfunct3 => ?row,
    fun rs1 rs2 imm s hlegal => storesBytes_of_writeWord hlegal rfl (fun _ => rfl) (fun j hj => ?inside)
      fun n hn => if_neg hn⟩
  case row => simp [decodeStore, hfunct3]
  case inside =>
    rw [byteEnable4_bit hj, if_pos (by omega), Nat.add_sub_cancel_left]
    rfl

end Sys2Proof.Machine
end

section
/-! PROOFS. The arithmetic, logic and comparison instructions and the immediate shifts (O20, O21, O22, O24;
spec/46_alu_immediate.md, spec/47_alu_register.md). Each is a write-back; what is left of each is its row and what its
operator says of its operands as bits or numbers. -/

namespace Sys2Proof.Machine

/-! ### The rows -/

/-- The words of the register-immediate opcode are classified by one part of the decoder (30_encoding R74). -/
theorem decode_of_opcode_aluImmediate (w : Word) (hop : opcode w = 0b0010011#7) : decode w = decodeAluImmediate w := by
  simp [decode, hop]

/-- The words of the register-register opcode are classified by one part of the decoder (30_encoding R74). -/
theorem decode_of_opcode_aluRegister (w : Word) (hop : opcode w = 0b0110011#7) : decode w = decodeAluRegister w := by
  simp [decode, hop]

/-- A row that tests funct7 too is encoded when the classifier of its opcode makes the instruction of the words of its
funct3 and funct7 (30_encoding R74). -/
theorem encodedBy_of_classifier_funct7 {p : Word} {build : Word → Instr} {op : BitVec 7}
    {classify : Word → Except Reject Instr} (hdecode : ∀ w : Word, opcode w = op → decode w = classify w)
    (f7 : BitVec 7) (f3 : BitVec 3) (hp : opcode p = op ∧ funct3 p = f3 ∧ funct7 p = f7)
    (h : ∀ w : Word, funct3 w = f3 → funct7 w = f7 → classify w = .ok (build w)) :
    EncodedBy 0xFE00707F#32 p build := by
  intro w hw
  obtain ⟨hop, hfunct3, hfunct7⟩ := hp
  obtain ⟨hw7, hw3, hwop⟩ := columns_of_match_funct7 hw
  rw [hdecode w (hwop.trans hop), h w (hw3.trans hfunct3) (hw7.trans hfunct7)]

/-! ### Sums and bitwise operations -/

/-- Settles O20: the columns select each row, and the sums and the difference of words are those of their numbers
modulo 2^32. -/
theorem addSubResults : Obligations.AddSubResults := by
  refine ⟨encodedBy_of_classifier decode_of_opcode_aluImmediate 0b000#3 ⟨rfl, rfl⟩ fun w hfunct3 => ?addi,
    encodedBy_of_classifier_funct7 decode_of_opcode_aluRegister 0b0000000#7 0b000#3 ⟨rfl, rfl, rfl⟩
      fun w hfunct3 hfunct7 => ?add,
    encodedBy_of_classifier_funct7 decode_of_opcode_aluRegister 0b0100000#7 0b000#3 ⟨rfl, rfl, rfl⟩
      fun w hfunct3 hfunct7 => ?sub,
    fun rd rs1 rs2 imm s => ⟨writesRegister_of_writeBack rfl (BitVec.toNat_add ..),
      writesRegister_of_writeBack rfl (BitVec.toNat_add ..), writesRegister_of_writeBack rfl ?difference⟩⟩
  case addi => simp [decodeAluImmediate, hfunct3]
  case add | sub => simp [decodeAluRegister, hfunct3, hfunct7]
  case difference =>
    have hlt := (s.readReg rs2).isLt
    rw [BitVec.toNat_sub, ← Nat.sub_add_comm hlt.le, Nat.add_comm (2 ^ 32)]

/-- Settles O21: the columns select each row, and each bit of a bitwise operation is the operation on the bits. -/
theorem logicResults : Obligations.LogicResults := by
  refine ⟨encodedBy_of_classifier decode_of_opcode_aluImmediate 0b100#3 ⟨rfl, rfl⟩ fun w hfunct3 => ?xori,
    encodedBy_of_classifier decode_of_opcode_aluImmediate 0b110#3 ⟨rfl, rfl⟩ fun w hfunct3 => ?ori,
    encodedBy_of_classifier decode_of_opcode_aluImmediate 0b111#3 ⟨rfl, rfl⟩ fun w hfunct3 => ?andi,
    encodedBy_of_classifier_funct7 decode_of_opcode_aluRegister 0b0000000#7 0b100#3 ⟨rfl, rfl, rfl⟩
      fun w hfunct3 hfunct7 => ?xor,
    encodedBy_of_classifier_funct7 decode_of_opcode_aluRegister 0b0000000#7 0b110#3 ⟨rfl, rfl, rfl⟩
      fun w hfunct3 hfunct7 => ?or,
    encodedBy_of_classifier_funct7 decode_of_opcode_aluRegister 0b0000000#7 0b111#3 ⟨rfl, rfl, rfl⟩
      fun w hfunct3 hfunct7 => ?and,
    fun rd rs1 rs2 imm s => ⟨writesRegister_of_writeBack rfl fun _ _ => BitVec.getLsbD_xor,
      writesRegister_of_writeBack rfl fun _ _ => BitVec.getLsbD_or,
      writesRegister_of_writeBack rfl fun _ _ => BitVec.getLsbD_and,
      writesRegister_of_writeBack rfl fun _ _ => BitVec.getLsbD_xor,
      writesRegister_of_writeBack rfl fun _ _ => BitVec.getLsbD_or,
      writesRegister_of_writeBack rfl fun _ _ => BitVec.getLsbD_and⟩⟩
  case xori | ori | andi => simp [decodeAluImmediate, hfunct3]
  case xor | or | and => simp [decodeAluRegister, hfunct3, hfunct7]

/-! ### Shifts as arithmetic (40_execute_common R108) -/

theorem shiftLeft_toNat (a : Word) (n : BitVec 5) :
    (shiftLeft a n).toNat = a.toNat * 2 ^ n.toNat % 2 ^ 32 := by
  rw [shiftLeft, BitVec.toNat_shiftLeft, Nat.shiftLeft_eq]

theorem shiftRightUnsigned_toNat (a : Word) (n : BitVec 5) :
    (shiftRightUnsigned a n).toNat = a.toNat / 2 ^ n.toNat := by
  rw [shiftRightUnsigned, BitVec.toNat_ushiftRight, Nat.shiftRight_eq_div_pow]

theorem shiftRightSigned_toInt (a : Word) (n : BitVec 5) :
    (shiftRightSigned a n).toInt = a.toInt / 2 ^ n.toNat := by
  rw [shiftRightSigned, BitVec.toInt_sshiftRight, Int.shiftRight_eq_div_pow, Nat.cast_pow, Nat.cast_ofNat]

/-- An I-format immediate whose upper seven bits are `0100000` is `0x400` above its lower five (R178). -/
theorem immI_of_funct7_bit30 {w : Word} (hfunct7 : funct7 w = 0b0100000#7) :
    immI w = 0x00000400#32 + (rs2Field w).zeroExtend 32 := by
  rw [immI_columns, hfunct7]
  generalize rs2Field w = shamt
  revert shamt
  decide

/-- Settles O22: the columns select each row and reject the other left-shift words, the shifts are multiplication and
division by a power of two, and an SRAI word's immediate has its funct7 above the shift amount. -/
theorem immediateShiftResults : Obligations.ImmediateShiftResults := by
  refine ⟨encodedBy_of_classifier_funct7 decode_of_opcode_aluImmediate 0b0000000#7 0b001#3 ⟨rfl, rfl, rfl⟩
      fun w hfunct3 hfunct7 => ?slli,
    encodedBy_of_classifier_funct7 decode_of_opcode_aluImmediate 0b0000000#7 0b101#3 ⟨rfl, rfl, rfl⟩
      fun w hfunct3 hfunct7 => ?srli,
    encodedBy_of_classifier_funct7 decode_of_opcode_aluImmediate 0b0100000#7 0b101#3 ⟨rfl, rfl, rfl⟩
      fun w hfunct3 hfunct7 => ?srai,
    fun rd rs1 shamt s => ⟨writesRegister_of_writeBack rfl (shiftLeft_toNat ..),
      writesRegister_of_writeBack rfl (shiftRightUnsigned_toNat ..),
      writesRegister_of_writeBack rfl (shiftRightSigned_toInt ..), fun w hop hfunct3 hfunct7 => ?invalid,
      fun w hw => ?immediate⟩⟩
  case slli | srli | srai => simp [decodeAluImmediate, hfunct3, hfunct7]
  case invalid => exact (not_recognised_aluImmediate_iff hop).mpr (.inl ⟨hfunct3, hfunct7⟩)
  case immediate =>
    obtain ⟨hfunct7, -, -⟩ := columns_of_match_funct7 hw
    exact immI_of_funct7_bit30 hfunct7

/-! ### Comparisons (40_execute_common R109) -/

/-- The 0 or 1 of a comparison that decides `less`. -/
theorem setIf_eq {c : Bool} {less : Prop} [Decidable less] (hc : c = true ↔ less) :
    setIf c = if less then 1#32 else 0#32 := if_congr hc rfl rfl

/-- Settles O24: the columns select each row, and the two comparisons are those of the operands as signed or
unsigned numbers. -/
theorem setLessThanResults : Obligations.SetLessThanResults := by
  refine ⟨encodedBy_of_classifier decode_of_opcode_aluImmediate 0b010#3 ⟨rfl, rfl⟩ fun w hfunct3 => ?slti,
    encodedBy_of_classifier decode_of_opcode_aluImmediate 0b011#3 ⟨rfl, rfl⟩ fun w hfunct3 => ?sltiu,
    encodedBy_of_classifier_funct7 decode_of_opcode_aluRegister 0b0000000#7 0b010#3 ⟨rfl, rfl, rfl⟩
      fun w hfunct3 hfunct7 => ?slt,
    encodedBy_of_classifier_funct7 decode_of_opcode_aluRegister 0b0000000#7 0b011#3 ⟨rfl, rfl, rfl⟩
      fun w hfunct3 hfunct7 => ?sltu,
    fun rd rs1 rs2 imm s => ⟨writesRegister_of_writeBack rfl (setIf_eq (ltSigned_iff ..)),
      writesRegister_of_writeBack rfl (setIf_eq (ltUnsigned_iff ..)),
      writesRegister_of_writeBack rfl (setIf_eq (ltSigned_iff ..)),
      writesRegister_of_writeBack rfl (setIf_eq (ltUnsigned_iff ..))⟩⟩
  case slti | sltiu => simp [decodeAluImmediate, hfunct3]
  case slt | sltu => simp [decodeAluRegister, hfunct3, hfunct7]

end Sys2Proof.Machine
end

section
/-! PROOFS. The register shifts (O23; spec/47_alu_register.md): the immediate shifts' arithmetic at the amount that a
register gives. -/

namespace Sys2Proof.Machine

/-- Only the low five bits of a register count as a shift amount (R192). -/
theorem shiftAmount_toNat (v : Word) : (shiftAmount v).toNat = v.toNat % 32 := by
  rw [shiftAmount, BitVec.extractLsb'_toNat, Nat.shiftRight_zero]

/-- Settles O23: the columns select each row, and the shifts are multiplication and division by two to the power of
the register's value modulo 32. -/
theorem registerShiftResults : Obligations.RegisterShiftResults := by
  refine ⟨encodedBy_of_classifier_funct7 decode_of_opcode_aluRegister 0b0000000#7 0b001#3 ⟨rfl, rfl, rfl⟩
      fun w hfunct3 hfunct7 => ?sll,
    encodedBy_of_classifier_funct7 decode_of_opcode_aluRegister 0b0000000#7 0b101#3 ⟨rfl, rfl, rfl⟩
      fun w hfunct3 hfunct7 => ?srl,
    encodedBy_of_classifier_funct7 decode_of_opcode_aluRegister 0b0100000#7 0b101#3 ⟨rfl, rfl, rfl⟩
      fun w hfunct3 hfunct7 => ?sra,
    fun rd rs1 rs2 s => ?results⟩
  case sll | srl | sra => simp [decodeAluRegister, hfunct3, hfunct7]
  case results =>
    rw [← shiftAmount_toNat]
    exact ⟨writesRegister_of_writeBack rfl (shiftLeft_toNat ..),
      writesRegister_of_writeBack rfl (shiftRightUnsigned_toNat ..),
      writesRegister_of_writeBack rfl (shiftRightSigned_toInt ..)⟩

end Sys2Proof.Machine
end

section
/-! PROOFS. The invariant: every step keeps it (O39), and every initial state, the reset state among them, meets it
(O40, O41, O43). -/

namespace Sys2Proof.Machine

/-! ### Storage lies in the window (20_memory R31) -/

theorem memInWindow_iff (s : State) :
    s.memInWindow = true ↔ ∀ c ∈ s.mem, s.cfg.memBase.toNat ≤ c.1 ∧ c.1 < s.cfg.memEnd.toNat := by
  simp only [State.memInWindow, List.all_eq_true, decide_eq_true_eq]

/-- A write to the word of an address of the window lists only bytes of the window. -/
theorem writeLanes_inWindow {c : Config} {m : Memory} {a : Word} {be : ByteEnable} {d : Word}
    (hlegal : legalBuild c = true) (hw : inWindow c a = true)
    (hm : ∀ x ∈ m, c.memBase.toNat ≤ x.1 ∧ x.1 < c.memEnd.toNat) :
    ∀ x ∈ Memory.writeLanes m (wordKey c a) be d, c.memBase.toNat ≤ x.1 ∧ x.1 < c.memEnd.toNat := by
  intro x hx
  have hbounds := wordKey_bounds hlegal hw
  rcases mem_writeLanes hx with hnew | hold
  · omega
  · exact hm x hold

/-! ### The step -/

/-- The invariant speaks of the constants and memory alone. -/
theorem inv_of_cfg_mem {s t : State} (hcfg : t.cfg = s.cfg) (hmem : t.mem = s.mem) (hs : s.Inv) : t.Inv := by
  obtain ⟨hlegal, hcanonical, hstored⟩ := hs
  refine ⟨hcfg ▸ hlegal, hmem ▸ hcanonical, ?_⟩
  rwa [State.memInWindow, hcfg, hmem]

/-- Every instruction keeps the invariant. -/
theorem exec_keeps_inv {i : Instr} {s t : State} (h : exec i s = .next t) (hs : s.Inv) : t.Inv := by
  have hcfg := exec_cfg h
  rcases exec_mem h with hmem | ⟨ea, be, d, -, hw, hmem⟩
  · exact inv_of_cfg_mem hcfg hmem hs
  · obtain ⟨hlegal, hcanonical, hstored⟩ := hs
    refine ⟨hcfg ▸ hlegal, hmem ▸ wf_writeLanes _ _ _ hcanonical, ?_⟩
    rw [memInWindow_iff, hcfg, hmem]
    exact writeLanes_inWindow hlegal hw ((memInWindow_iff s).mp hstored)

/-- Settles O39: the fetch leaves the constants and memory, and the instruction run after it keeps the invariant. -/
theorem stepKeepsTheInvariant : Obligations.StepKeepsTheInvariant := by
  intro s t hs hstep
  have hfetch : s.afterFetch.Inv := inv_of_cfg_mem (afterFetch_cfg s) (afterFetch_mem s) hs
  obtain ⟨-, ⟨i, -, hexec⟩ | ⟨-, rfl⟩⟩ := step_next hstep
  · exact exec_keeps_inv hexec hfetch
  · exact hfetch

/-! ### Initial states (10_state R25, R26) -/

theorem imageFits_iff (c : Config) (image : List Word) :
    imageFits c image = true ↔ legalBuild c = true ∧ c.memEnd.toNat = c.memBase.toNat + 4 * image.length := by
  simp [imageFits]

/-- Placing words from index `k` on lists no address outside them. -/
theorem mem_placeFrom (c : Config) {image : List Word} {m : Memory} {k : Nat} {x : Host.Cell}
    (h : x ∈ Memory.placeFrom c m k image) :
    (wordBase c k ≤ x.1 ∧ x.1 < wordBase c (k + image.length)) ∨ x ∈ m := by
  induction image generalizing m k with
  | nil => exact .inr h
  | cons w rest ih =>
    have hplaced := ih h
    unfold wordBase at *
    rw [List.length_cons]
    rcases hplaced with hrest | hx
    · exact .inl (by omega)
    · rcases mem_writeLanes hx with hfirst | hold
      · exact .inl (by omega)
      · exact .inr hold

/-- Settles O41: placing an image that fits keeps the canonical form and lists only bytes of the window. -/
theorem initialStatesMeetTheInvariant : Obligations.InitialStatesMeetTheInvariant := by
  intro c image regInit hfit
  obtain ⟨hlegal, hend⟩ := (imageFits_iff c image).mp hfit
  refine ⟨hlegal, wf_placeFrom c 0 image rfl, (memInWindow_iff _).mpr fun x hx => ?_⟩
  rcases mem_placeFrom c hx with hplaced | hnil
  · unfold wordBase at hplaced
    simp only [initialState]
    omega
  · cases hnil

/-- Zero words placed in empty memory list nothing. -/
theorem placeFrom_zeros (c : Config) (k n : Nat) : Memory.placeFrom c [] k (List.replicate n 0#32) = [] := by
  induction n generalizing k with
  | zero => rfl
  | succ n ih => exact ih (k + 1)

/-- Settles O43: T0 has room for 256 words, and the image of zero words is the empty list. -/
theorem resetIsAnInitialState : Obligations.ResetIsAnInitialState := by
  refine ⟨(imageFits_iff _ _).mpr ⟨rfl, by rw [List.length_replicate]; rfl⟩, ?_⟩
  rw [initialState, Memory.ofImage, placeFrom_zeros]
  rfl

/-- Settles O40: the reset state is an initial state, and those meet the invariant. -/
theorem resetMeetsTheInvariant : Obligations.ResetMeetsTheInvariant := by
  obtain ⟨hfit, hreset⟩ := resetIsAnInitialState
  rw [Obligations.ResetMeetsTheInvariant, hreset]
  exact initialStatesMeetTheInvariant _ _ _ hfit

end Sys2Proof.Machine
end

section
/-! PROOFS. Decoder and encoder are inverse (O1, O2, O3; spec/30_encoding.md R67, R74), the rows partition the words
(O5), and the words that halt in place (O8). -/

namespace Sys2Proof

/-! ### The fields of each format (R67) -/

section Fields

variable (f7 : BitVec 7) (f3 : BitVec 3) (op : BitVec 7) (rd rs1 rs2 : RegIdx) (v : Word)

@[simp] theorem opcode_encodeR : opcode (encodeR f7 f3 op rd rs1 rs2) = op := opcode_packWord ..
@[simp] theorem funct3_encodeR : funct3 (encodeR f7 f3 op rd rs1 rs2) = f3 := funct3_packWord ..
@[simp] theorem funct7_encodeR : funct7 (encodeR f7 f3 op rd rs1 rs2) = f7 := funct7_packWord ..
@[simp] theorem rdField_encodeR : rdField (encodeR f7 f3 op rd rs1 rs2) = rd := rdField_packWord ..
@[simp] theorem rs1Field_encodeR : rs1Field (encodeR f7 f3 op rd rs1 rs2) = rs1 := rs1Field_packWord ..
@[simp] theorem rs2Field_encodeR : rs2Field (encodeR f7 f3 op rd rs1 rs2) = rs2 := rs2Field_packWord ..

@[simp] theorem opcode_encodeI : opcode (encodeI f3 op rd rs1 v) = op := opcode_packWord ..
@[simp] theorem funct3_encodeI : funct3 (encodeI f3 op rd rs1 v) = f3 := funct3_packWord ..
@[simp] theorem rdField_encodeI : rdField (encodeI f3 op rd rs1 v) = rd := rdField_packWord ..
@[simp] theorem rs1Field_encodeI : rs1Field (encodeI f3 op rd rs1 v) = rs1 := rs1Field_packWord ..

@[simp] theorem opcode_encodeS : opcode (encodeS f3 op rs1 rs2 v) = op := opcode_packWord ..
@[simp] theorem funct3_encodeS : funct3 (encodeS f3 op rs1 rs2 v) = f3 := funct3_packWord ..
@[simp] theorem rs1Field_encodeS : rs1Field (encodeS f3 op rs1 rs2 v) = rs1 := rs1Field_packWord ..
@[simp] theorem rs2Field_encodeS : rs2Field (encodeS f3 op rs1 rs2 v) = rs2 := rs2Field_packWord ..

@[simp] theorem opcode_encodeB : opcode (encodeB f3 op rs1 rs2 v) = op := opcode_packWord ..
@[simp] theorem funct3_encodeB : funct3 (encodeB f3 op rs1 rs2 v) = f3 := funct3_packWord ..
@[simp] theorem rs1Field_encodeB : rs1Field (encodeB f3 op rs1 rs2 v) = rs1 := rs1Field_packWord ..
@[simp] theorem rs2Field_encodeB : rs2Field (encodeB f3 op rs1 rs2 v) = rs2 := rs2Field_packWord ..

@[simp] theorem opcode_encodeU : opcode (encodeU op rd v) = op := opcode_packWord ..
@[simp] theorem rdField_encodeU : rdField (encodeU op rd v) = rd := rdField_packWord ..

@[simp] theorem opcode_encodeJ : opcode (encodeJ op rd v) = op := opcode_packWord ..
@[simp] theorem rdField_encodeJ : rdField (encodeJ op rd v) = rd := rdField_packWord ..

end Fields

/-! ### Decode after encode -/

/-- The decoder's tests on the columns of an instruction's word select the instruction, and its fields and immediate
are the operands. -/
theorem decode_encode {i : Instr} (h : i.wellFormed = true) : decode (encode i) = .ok i := by
  cases i
  case lui | auipc => simp [decode, encode, immU_encodeU _ _ h]
  case jal => simp [decode, encode, immJ_encodeJ _ _ h]
  case jalr => simp [decode, encode, immI_encodeI _ _ _ _ h]
  case beq | bne | blt | bge | bltu | bgeu => simp [decode, decodeBranch, encode, immB_encodeB _ _ _ _ h]
  case lb | lh | lw | lbu | lhu => simp [decode, decodeLoad, encode, immI_encodeI _ _ _ _ h]
  case sb | sh | sw => simp [decode, decodeStore, encode, immS_encodeS _ _ _ _ h]
  case addi | slti | sltiu | xori | ori | andi =>
    simp [decode, decodeAluImmediate, encode, immI_encodeI _ _ _ _ h]
  case slli | srli | srai => simp [decode, decodeAluImmediate, encode]
  case add | sub | sll | slt | sltu | xor | srl | sra | or | and => simp [decode, decodeAluRegister, encode]

/-- Settles O2: format by format, the fields and the immediate of the encoded word are the operands. -/
theorem decodeInvertsEncode : Obligations.DecodeInvertsEncode := fun _ => decode_encode

/-- The word of a well-formed instruction decodes to it. -/
theorem decode_of_encode_eq {i : Instr} {w : Word} (hwf : i.wellFormed = true) (hw : encode i = w) :
    decode w = .ok i := hw ▸ decode_encode hwf

/-- Settles O1: each word is the encoding of a well-formed instruction. -/
theorem decodesTheSpecsWords : Obligations.DecodesTheSpecsWords :=
  ⟨decode_of_encode_eq rfl rfl, decode_of_encode_eq rfl rfl, decode_of_encode_eq rfl rfl, decode_of_encode_eq rfl rfl,
    decode_of_encode_eq rfl rfl, decode_of_encode_eq rfl rfl, decode_of_encode_eq rfl rfl, decode_of_encode_eq rfl rfl,
    decode_of_encode_eq rfl rfl⟩

/-! ### Encode after decode

Each encoder puts the bits of an immediate back into the columns they came from. -/

/-- Two words that agree bit by bit on a stretch have the same field there. -/
theorem extract_eq_of_bits {x y : Word} {s t m : Nat} (h : ∀ i, i < m → x.getLsbD (s + i) = y.getLsbD (t + i)) :
    x.extractLsb' s m = y.extractLsb' t m := by
  apply BitVec.eq_of_getLsbD_eq
  intro i hi
  simpa [hi] using h i hi

section Matches

variable {iw : Word} {f7 : BitVec 7} {f3 : BitVec 3} {op : BitVec 7}

theorem encodeR_of_match (h : iw &&& 0xFE00707F#32 = packWord f7 0 0 f3 0 op) :
    encodeR f7 f3 op (rdField iw) (rs1Field iw) (rs2Field iw) = iw := by
  obtain ⟨rfl, rfl, rfl⟩ := (matches_funct7 iw f7 f3 op).mp h
  exact packWord_fields iw

theorem encodeI_of_match (h : iw &&& 0x0000707F#32 = packWord 0 0 0 f3 0 op) :
    encodeI f3 op (rdField iw) (rs1Field iw) (immI iw) = iw := by
  obtain ⟨rfl, rfl⟩ := (matches_funct3 iw f3 op).mp h
  have hhigh : (immI iw).extractLsb' 5 7 = funct7 iw := extract_eq_of_bits (by grind [immI_bit])
  have hlow : (immI iw).extractLsb' 0 5 = rs2Field iw := extract_eq_of_bits (by grind [immI_bit])
  rw [encodeI, hhigh, hlow, packWord_fields]

theorem encodeS_of_match (h : iw &&& 0x0000707F#32 = packWord 0 0 0 f3 0 op) :
    encodeS f3 op (rs1Field iw) (rs2Field iw) (immS iw) = iw := by
  obtain ⟨rfl, rfl⟩ := (matches_funct3 iw f3 op).mp h
  have hhigh : (immS iw).extractLsb' 5 7 = funct7 iw := extract_eq_of_bits (by grind [immS_bit])
  have hlow : (immS iw).extractLsb' 0 5 = rdField iw := extract_eq_of_bits (by grind [immS_bit])
  rw [encodeS, hhigh, hlow, packWord_fields]

theorem encodeB_of_match (h : iw &&& 0x0000707F#32 = packWord 0 0 0 f3 0 op) :
    encodeB f3 op (rs1Field iw) (rs2Field iw) (immB iw) = iw := by
  obtain ⟨rfl, rfl⟩ := (matches_funct3 iw f3 op).mp h
  have h12 : (immB iw).extractLsb' 12 1 = iw.extractLsb' 31 1 := extract_eq_of_bits (by grind [immB_bit])
  have h5 : (immB iw).extractLsb' 5 6 = iw.extractLsb' 25 6 := extract_eq_of_bits (by grind [immB_bit])
  have h1 : (immB iw).extractLsb' 1 4 = iw.extractLsb' 8 4 := extract_eq_of_bits (by grind [immB_bit])
  have h11 : (immB iw).extractLsb' 11 1 = iw.extractLsb' 7 1 := extract_eq_of_bits (by grind [immB_bit])
  rw [encodeB, h12, h5, h1, h11, extract_append iw 25 6 1, extract_append iw 7 1 4]
  exact packWord_fields iw

theorem encodeU_of_match (h : iw &&& 0x0000007F#32 = packWord 0 0 0 0 0 op) :
    encodeU op (rdField iw) (immU iw) = iw := by
  obtain rfl := (matches_opcode iw op).mp h
  have hpart : ∀ s m, 12 ≤ s → s + m ≤ 32 → (immU iw).extractLsb' s m = iw.extractLsb' s m :=
    fun _ _ _ _ => extract_eq_of_bits (by grind [immU_bit])
  rw [encodeU, hpart 25 7 (by omega) (by omega), hpart 20 5 (by omega) (by omega), hpart 15 5 (by omega) (by omega),
    hpart 12 3 (by omega) (by omega)]
  exact packWord_fields iw

theorem encodeJ_of_match (h : iw &&& 0x0000007F#32 = packWord 0 0 0 0 0 op) :
    encodeJ op (rdField iw) (immJ iw) = iw := by
  obtain rfl := (matches_opcode iw op).mp h
  have h20 : (immJ iw).extractLsb' 20 1 = iw.extractLsb' 31 1 := extract_eq_of_bits (by grind [immJ_bit])
  have h5 : (immJ iw).extractLsb' 5 6 = iw.extractLsb' 25 6 := extract_eq_of_bits (by grind [immJ_bit])
  have h1 : (immJ iw).extractLsb' 1 4 = iw.extractLsb' 21 4 := extract_eq_of_bits (by grind [immJ_bit])
  have h11 : (immJ iw).extractLsb' 11 1 = iw.extractLsb' 20 1 := extract_eq_of_bits (by grind [immJ_bit])
  have h15 : (immJ iw).extractLsb' 15 5 = iw.extractLsb' 15 5 := extract_eq_of_bits (by grind [immJ_bit])
  have h12 : (immJ iw).extractLsb' 12 3 = iw.extractLsb' 12 3 := extract_eq_of_bits (by grind [immJ_bit])
  rw [encodeJ, h20, h5, h1, h11, h15, h12, extract_append iw 25 6 1, extract_append iw 20 1 4]
  exact packWord_fields iw

end Matches

/-- A word that encodes an instruction is the word the encoder gives, and its immediate is in its format's range. -/
theorem encode_of_encodedBy {iw : Word} {i : Instr} (h : i.encodedBy iw) : i.wellFormed = true ∧ encode i = iw := by
  obtain ⟨hmatch, hcarried⟩ := h
  have hcolumns : iw &&& i.row.mask = i.row.pattern := by simpa [OpcodeRow.matchesWord] using hmatch
  cases i
  case lui | auipc =>
    obtain ⟨rfl, rfl⟩ := hcarried
    exact ⟨fitsImmU_immU iw, encodeU_of_match hcolumns⟩
  case jal =>
    obtain ⟨rfl, rfl⟩ := hcarried
    exact ⟨fitsImmJ_immJ iw, encodeJ_of_match hcolumns⟩
  case beq | bne | blt | bge | bltu | bgeu =>
    obtain ⟨rfl, rfl, rfl⟩ := hcarried
    exact ⟨fitsImmB_immB iw, encodeB_of_match hcolumns⟩
  case sb | sh | sw =>
    obtain ⟨rfl, rfl, rfl⟩ := hcarried
    exact ⟨fitsImm12_immS iw, encodeS_of_match hcolumns⟩
  case jalr | lb | lh | lw | lbu | lhu | addi | slti | sltiu | xori | ori | andi =>
    obtain ⟨rfl, rfl, rfl⟩ := hcarried
    exact ⟨fitsImm12_immI iw, encodeI_of_match hcolumns⟩
  case slli | srli | srai | add | sub | sll | slt | sltu | xor | srl | sra | or | and =>
    obtain ⟨rfl, rfl, rfl⟩ := hcarried
    exact ⟨rfl, encodeR_of_match hcolumns⟩

/-- Settles O3: the decoder answers an instruction that the word encodes. -/
theorem encodeInvertsDecode : Obligations.EncodeInvertsDecode :=
  fun _ _ hdecode => encode_of_encodedBy (decode_ok hdecode)

/-! ### The rows (95_test_vectors section 1.2) -/

/-- Settles O5: rows that apply to one word are one row, and the two descriptions recognise the same words. -/
theorem opcodeRowsPartitionWords : Obligations.OpcodeRowsPartitionWords := by
  intro w
  refine ⟨?_, recognised_iff_match w⟩
  have hnodup : (opcodeTable.filter (·.matchesWord w)).Nodup := List.Nodup.filter _ (by decide)
  rw [← List.toFinset_card_of_nodup hnodup, Finset.card_le_one]
  intro r hr r' hr'
  obtain ⟨hmem, hmatch⟩ := List.mem_filter.mp (List.mem_toFinset.mp hr)
  obtain ⟨hmem', hmatch'⟩ := List.mem_filter.mp (List.mem_toFinset.mp hr')
  exact row_unique hmem hmem' hmatch hmatch'

/-! ### Words that halt in place (48_invalid_and_system R212 to R214) -/

/-- Every opcode of the map ends in the bits `11` (R78). -/
theorem low_bits_of_opcode_mem {iw : Word} (h : opcode iw ∈ opcodes) : iw.extractLsb' 0 2 = 0b11#2 := by
  have hall : ∀ op ∈ opcodes, op.extractLsb' 0 2 = 0b11#2 := by decide
  have hlow := hall _ h
  rwa [opcode, extract_extract _ _ _ _ _ (by omega)] at hlow

/-- Settles O8: none of these words has an opcode of the map. -/
theorem absentInstructionsHaltInPlace : Obligations.AbsentInstructionsHaltInPlace := by
  intro w s h
  have hop : opcode w ∉ opcodes := by
    rcases h with hmisc | hsystem | hlow
    · rw [hmisc]; decide
    · rw [hsystem]; decide
    · exact fun hmem => hlow (low_bits_of_opcode_mem hmem)
  have hrec := not_recognised_of_opcode hop
  exact ⟨hrec, runWord_of_not_recognised hrec s⟩

end Sys2Proof
end

section
/-! PROOFS. Every step answers or is refused by name (O36, O37), the Invalid stall (O38), free values (O46) and the
placed word (O48). -/

namespace Sys2Proof.Machine

/-! ### Answers and the one refusal (00_scope R5, R6; log 8) -/

/-- Every instruction answers a next state in every state (60_exceptions R220). -/
theorem exec_answers (i : Instr) (s : State) : ∃ t : State, exec i s = .next t := by
  cases i <;> exact ⟨_, rfl⟩

/-- So does every word, Invalid ones included. -/
theorem runWord_answers (iw : Word) (s : State) : ∃ t : State, runWord iw s = .next t := by
  cases hdecode : decode iw with
  | ok i => rw [runWord_of_ok hdecode]; exact exec_answers i s
  | error r => exact ⟨s, runWord_of_error hdecode s⟩

/-- A step keeps the build's constants. -/
theorem step_cfg {s t : State} (h : step s = .next t) : t.cfg = s.cfg := by
  obtain ⟨-, ⟨i, -, hexec⟩ | ⟨-, rfl⟩⟩ := step_next h
  · rw [exec_cfg hexec, afterFetch_cfg]
  · exact afterFetch_cfg s

/-- Settles O37: every instruction answers, a legal build runs the fetched word, and no step changes the build. -/
theorem everyLegalStepAnswers : Obligations.EveryLegalStepAnswers := by
  refine ⟨exec_answers, fun s hlegal => ?_⟩
  obtain ⟨t, hrun⟩ := runWord_answers s.fetchWord s.afterFetch
  have hstep : step s = .next t := (step_of_legalBuild hlegal).trans hrun
  exact ⟨t, hstep, step_cfg hstep ▸ hlegal⟩

/-- Settles O36: a legal build answers a next state, and an illegal one is refused before the fetch. -/
theorem onlyIllegalBuildsAreRefused : Obligations.OnlyIllegalBuildsAreRefused := by
  intro s
  cases hlegal : legalBuild s.cfg with
  | true =>
    obtain ⟨-, hanswers⟩ := everyLegalStepAnswers
    obtain ⟨t, hstep, -⟩ := hanswers s hlegal
    simp [hstep]
  | false => simp [step, hlegal]

/-! ### The Invalid stall (48_invalid_and_system R210, R211) -/

/-- A state that a step does not change is where any run from it ends. -/
theorem run_of_fixed_point {s : State} (h : step s = .next s) (k : Nat) : Sys2Proof.core.run k s = .next s := by
  induction k with
  | zero => rfl
  | succ k ih =>
    have hcore : Sys2Proof.core.step s = .next s := h
    simp only [Host.Core.run, hcore, ih]

/-- A halted state of a legal build is a fixed point of the step. -/
theorem step_of_halted {s : State} (hlegal : legalBuild s.cfg = true) (hhalted : s.halted = true) :
    step s = .next s := by
  obtain ⟨hpc, hinvalid⟩ : inWindow s.cfg s.pc = true ∧ recognised s.fetchWord = false := by
    simpa [State.halted] using hhalted
  exact (step_of_inWindow hlegal hpc).trans (runWord_of_not_recognised hinvalid s)

/-- Settles O38: a word of no row is Invalid, a halted state is a fixed point, and a fetch outside the window gives a
free word. -/
theorem invalidStallIsAFixedPoint : Obligations.InvalidStallIsAFixedPoint := by
  refine ⟨fun w s hrows => ?invalid, fun s hlegal => ⟨fun hhalted => ?halted, fun hpc => ?outside⟩⟩
  case invalid =>
    obtain ⟨hrecognised, -⟩ := invalidSpaceEnumerated w
    exact runWord_of_not_recognised (hrecognised.mpr hrows) s
  case halted =>
    have hfixed := step_of_halted hlegal hhalted
    exact ⟨hfixed, run_of_fixed_point hfixed⟩
  case outside =>
    obtain ⟨-, hstep⟩ := outOfWindowReadsAreFree
    exact hstep s hlegal hpc

/-! ### The placed word (70_reset_and_hazards R252, log 9) -/

/-- The window of a legal build is not empty: it begins at `MEM_BASE`. -/
theorem inWindow_memBase {c : Config} (hlegal : legalBuild c = true) : inWindow c c.memBase = true := by
  obtain ⟨-, -, -, hlt, -⟩ := (legalBuild_iff c).mp hlegal
  exact (inWindow_iff c _).mpr ⟨Nat.le_refl _, hlt⟩

/-- The state a word is placed in is of a legal build, with `pc` in the window. -/
theorem fetchable_legal_inWindow (s : State) :
    legalBuild s.fetchable.cfg = true ∧ inWindow s.fetchable.cfg s.fetchable.pc = true := by
  unfold State.fetchable
  generalize ht : (if legalBuild s.cfg then s else { s with cfg := resetConfig }) = t
  have hlegal : legalBuild t.cfg = true := by
    rw [← ht]
    split
    · assumption
    · exact resetMeetsTheInvariant.legal
  by_cases hpc : inWindow t.cfg t.pc = true
  · simp [hpc, hlegal]
  · simp [hpc, hlegal, inWindow_memBase hlegal]

/-- Settles O48: the placed state is of a legal build with `pc` in the window, where the fetch reads the word back. -/
theorem placedWordIsRunNext : Obligations.PlacedWordIsRunNext := by
  intro s w hw
  obtain ⟨hlegal, hpc⟩ : legalBuild (s.withFetchWord 32 w).cfg = true ∧
      inWindow (s.withFetchWord 32 w).cfg (s.withFetchWord 32 w).pc = true := fetchable_legal_inWindow s
  have hmem : (s.withFetchWord 32 w).mem =
      Memory.writeLanes s.fetchable.mem (wordKey s.fetchable.cfg s.fetchable.pc) 0b1111#4 (BitVec.ofNat 32 w) := by
    rw [State.withFetchWord, Nat.mod_eq_of_lt hw]
  have hfetch : (s.withFetchWord 32 w).readWord (s.withFetchWord 32 w).pc = BitVec.ofNat 32 w := by
    rw [readWord_of_inWindow hpc, hmem]
    exact readWord_writeLanes_self ..
  rw [step_of_inWindow hlegal hpc, hfetch]

/-! ### Free values (70_reset_and_hazards R253) -/

/-- The state with another free value next (log 4). -/
def State.withDraws (s : State) (n : Nat) : State := { s with draws := n }

section WithDraws

variable (s : State) (n : Nat)

theorem writeReg_withDraws (i : RegIdx) (v : Word) :
    (s.withDraws n).writeReg i v = (s.writeReg i v).withDraws n := by
  unfold State.writeReg
  split <;> rfl

theorem writeBack_withDraws (rd : RegIdx) (v : Word) :
    (s.withDraws n).writeBack rd v = (s.writeBack rd v).withDraws n := by
  rw [State.writeBack, writeReg_withDraws]
  rfl

theorem linkAndJump_withDraws (rd : RegIdx) (t : Word) :
    (s.withDraws n).linkAndJump rd t = (s.linkAndJump rd t).withDraws n := by
  rw [State.linkAndJump, writeReg_withDraws]
  rfl

theorem branch_withDraws (c : Bool) (imm : Word) :
    (s.withDraws n).branch c imm = (s.branch c imm).withDraws n := by
  cases c <;> rfl

/-- A channel write and the advance after it. -/
theorem advance_writeWord_withDraws (a : Word) (be : ByteEnable) (d : Word) :
    ((s.withDraws n).writeWord a be d).advance = (s.writeWord a be d).advance.withDraws n := by
  have hsplit : (s.withDraws n).writeWord a be d = (s.writeWord a be d).withDraws n := by
    unfold State.writeWord State.withDraws
    repeat' split
    all_goals rfl
  rw [hsplit]
  rfl

end WithDraws

/-- A read in the window does not see which free value is next. -/
theorem readWord_withDraws {s : State} {a : Word} (hw : inWindow s.cfg a = true) (n : Nat) :
    (s.withDraws n).readWord a = s.readWord a := by
  rw [readWord_of_inWindow hw]
  exact readWord_of_inWindow (s := s.withDraws n) hw

/-- A load in the window that obtains the same value ends in the same state. -/
theorem finishLoad_withDraws {s : State} {ea : Word} (hw : inWindow s.cfg (wordAlign ea) = true) (n : Nat)
    (rd : RegIdx) (v : Word) :
    (s.withDraws n).finishLoad rd ea v = (s.finishLoad rd ea v).withDraws n := by
  have hread : (s.withDraws n).afterRead (wordAlign ea) = s.withDraws n := afterRead_of_inWindow hw
  rw [State.finishLoad, State.finishLoad, hread, afterRead_of_inWindow hw, writeBack_withDraws]

theorem effAddr_withDraws (s : State) (n : Nat) (rs1 : RegIdx) (imm : Word) :
    (s.withDraws n).effAddr rs1 imm = s.effAddr rs1 imm := rfl

/-- If the instruction is a load, its aligned address is in the window (R253(c)). -/
def LoadInWindow (s : State) (i : Instr) : Prop :=
  isLoadInstr i = true → ∀ ea, effectiveAddress s i = some ea → inWindow s.cfg (wordAlign ea) = true

/-- An instruction that does not load outside the window uses no free value. -/
theorem exec_draws {i : Instr} {s t : State} (h : exec i s = .next t) (hload : LoadInWindow s i) :
    t.draws = s.draws := by
  cases i
  case lb | lh | lw | lbu | lhu =>
    cases h
    rw [State.finishLoad, writeBack_draws, afterRead_of_inWindow (hload rfl _ rfl)]
  all_goals cases h; simp

/-- Nor does it see which one is next. -/
theorem exec_withDraws {i : Instr} {s t : State} (h : exec i s = .next t) (hload : LoadInWindow s i) (n : Nat) :
    exec i (s.withDraws n) = .next (t.withDraws n) := by
  cases i
  case lb | lh | lw | lbu | lhu =>
    cases h
    have hw := hload rfl _ rfl
    simp only [exec, execLb, execLh, execLw, execLbu, execLhu, State.memRead1, State.memRead2, State.memRead4,
      effAddr_withDraws, readWord_withDraws hw, finishLoad_withDraws hw]
  case sb | sh | sw =>
    cases h
    exact congrArg Host.Outcome.next (advance_writeWord_withDraws ..)
  case beq | bne | blt | bge | bltu | bgeu =>
    cases h
    exact congrArg Host.Outcome.next (branch_withDraws ..)
  case jal | jalr =>
    cases h
    exact congrArg Host.Outcome.next (linkAndJump_withDraws ..)
  all_goals
    cases h
    exact congrArg Host.Outcome.next (writeBack_withDraws ..)

/-- What the discipline says of `pc`. -/
theorem inWindow_of_disciplined {s : State} (hs : s.disciplined = true) : inWindow s.cfg s.pc = true := by
  rw [State.disciplined, Bool.and_eq_true] at hs
  exact hs.left

/-- What the discipline says of the instruction the step runs. -/
theorem loadInWindow_of_disciplined {s : State} {i : Instr} (hs : s.disciplined = true)
    (hdecode : decode s.fetchWord = .ok i) : LoadInWindow s i := by
  intro hl ea hea
  simp only [State.disciplined, hdecode, hl, hea, Bool.and_eq_true] at hs
  exact hs.right

/-- Settles O46: the fetch in the window reads no free value, and neither does the instruction it fetches. -/
theorem freeValuesDoNotReachDisciplinedSteps : Obligations.FreeValuesDoNotReachDisciplinedSteps := by
  intro s t n hs hstep
  change t.draws = s.draws ∧ step (s.withDraws n) = .next (t.withDraws n)
  obtain ⟨hlegal, hrun⟩ := step_next hstep
  have hpc := inWindow_of_disciplined hs
  have hstep' : step (s.withDraws n) = runWord s.fetchWord (s.withDraws n) :=
    (step_of_inWindow (s := s.withDraws n) hlegal hpc).trans (congrArg (runWord · _) (readWord_withDraws hpc n))
  have hfetch : s.afterFetch = s := afterRead_of_inWindow hpc
  rw [hfetch] at hrun
  rw [hstep']
  obtain ⟨i, hdecode, hexec⟩ | ⟨⟨r, hdecode⟩, rfl⟩ := hrun
  · have hload := loadInWindow_of_disciplined hs hdecode
    exact ⟨exec_draws hexec hload, (runWord_of_ok hdecode _).trans (exec_withDraws hexec hload n)⟩
  · exact ⟨rfl, runWord_of_error hdecode _⟩

end Sys2Proof.Machine
end

section
/-! PROOFS. The frame of every instruction (O26), the load that sees the store before it (O31), and the canonical form
of memory (O33). -/

namespace Sys2Proof.Machine

/-! ### The frame (95_test_vectors section 6 item 5) -/

/-- No register but the destination changes (10_state R13). -/
theorem exec_readReg {i : Instr} {s t : State} (h : exec i s = .next t) {r : RegIdx} (hr : destination i ≠ some r) :
    t.readReg r = s.readReg r := by
  cases i
  case beq | bne | blt | bge | bltu | bgeu | sb | sh | sw => cases h; simp
  all_goals
    cases h
    have hne := fun e => hr (congrArg some e)
    simp [readReg_writeBack, readReg_linkAndJump, readReg_finishLoad, Ne.symm hne]

/-- A store is one channel write at its aligned address, then the next instruction; it writes no register (R47). -/
theorem exec_of_storeTarget {i : Instr} {s : State} {ea : Word} {be : ByteEnable}
    (h : storeTarget s i = some (ea, be)) :
    destination i = none ∧ ∃ d, exec i s = .next (s.writeWord (wordAlign ea) be d).advance := by
  cases i
  case sb | sh | sw => cases h; exact ⟨rfl, _, rfl⟩
  all_goals cases h

/-- An instruction that does not store leaves memory and the port. -/
theorem exec_of_no_storeTarget {i : Instr} {s t : State} (h : exec i s = .next t) (hi : storeTarget s i = none) :
    t.mem = s.mem ∧ t.output = s.output := by
  cases i
  case sb | sh | sw => cases hi
  all_goals cases h; simp

/-- A channel write changes only enabled bytes of the addressed word, and those only in the window and not at the
sentinel, in every build (20_memory R39). -/
theorem readByte_writeWord_frame {s : State} {a : Word} {be : ByteEnable} {n : Nat} (d : Word)
    (hn : ¬ (a ≠ s.cfg.outAddr ∧ inWindow s.cfg a = true ∧ wordKey s.cfg a ≤ n ∧ n < wordKey s.cfg a + 4 ∧
      be.getLsbD (n - wordKey s.cfg a) = true)) :
    Memory.readByte (s.writeWord a be d).mem n = Memory.readByte s.mem n := by
  by_cases ho : a = s.cfg.outAddr
  · obtain ⟨hmem, -⟩ := writeWord_outAddr s be d
    rw [ho, hmem]
  · cases hw : inWindow s.cfg a with
    | false => rw [writeWord_elsewhere ho hw]
    | true =>
      obtain ⟨-, hbytes⟩ := writeWord_window ho hw be d
      rw [hbytes, if_neg fun henabled => hn ⟨ho, hw, henabled⟩]

/-- Settles O26: a store is one channel write, an instruction that does not store leaves memory and the port, and each
part of the frame is a fact about every instruction. -/
theorem everyInstructionsFrame : Obligations.EveryInstructionsFrame := by
  intro i s t h
  refine ⟨fun r hr => exec_readReg h hr, ?_, fun hl => exec_draws h fun hload => ?_, exec_cfg h⟩
  · cases htarget : storeTarget s i with
    | none =>
      obtain ⟨hmem, hout⟩ := exec_of_no_storeTarget h htarget
      exact ⟨fun n => by rw [hmem], hout⟩
    | some target =>
      obtain ⟨ea, be⟩ := target
      obtain ⟨hdest, d, hexec⟩ := exec_of_storeTarget htarget
      obtain rfl : (s.writeWord (wordAlign ea) be d).advance = t := Host.Outcome.next.inj (hexec.symm.trans h)
      exact ⟨hdest, fun n hn => readByte_writeWord_frame d hn⟩
  · exact absurd hload (by simp [hl])

/-! ### Store, then load (95_test_vectors section 6 item 8) -/

section Legal

variable {s : State} (hlegal : legalBuild s.cfg = true)
include hlegal

variable {ea : Word} (hw : inWindow s.cfg ea = true) (v : Word)
include hw

/-- A lane of the aligned word read back after a channel write that enabled it. -/
theorem lane_readWord_writeWord {be : ByteEnable} (d : Word) {i : Nat} (hi : i < 4) (hbe : be.getLsbD i = true) :
    lane ((s.writeWord (wordAlign ea) be d).readWord (wordAlign ea)) i = lane d i := by
  have hwAlign : inWindow s.cfg (wordAlign ea) = true := (inWindow_wordAlign hlegal ea).trans hw
  have haligned : (wordAlign ea).toNat % 4 = 0 := by rw [wordAlign_toNat]; omega
  obtain ⟨-, hbytes⟩ := writeWord_of_aligned hlegal hwAlign haligned be d
  rw [lane_readWord_of_aligned (by rwa [writeWord_cfg]) (by rwa [writeWord_cfg]) haligned hi, hbytes]
  simp [hi, hbe]

theorem memRead1_memWrite1 : (s.memWrite1 ea v).memRead1 ea = v.extractLsb' 0 8 := by
  have hi := byteLane_lt ea
  calc (s.memWrite1 ea v).memRead1 ea = lane ((s.memWrite1 ea v).readWord (wordAlign ea)) (byteLane ea) := rfl
    _ = lane (replicateByte v) (byteLane ea) :=
      lane_readWord_writeWord hlegal hw _ hi (by rw [byteEnable1_bit ea hi, byteLane_eq]; simp)
    _ = lane v 0 := lane_replicateByte v hi

theorem memRead2_memWrite2 : (s.memWrite2 ea v).memRead2 ea = v.extractLsb' 0 16 := by
  have hh := halfLane_lt ea
  have hlane : ∀ j, j < 2 →
      lane ((s.memWrite2 ea v).readWord (wordAlign ea)) (2 * halfLane ea + j) = lane v j := by
    intro j hj
    have hi : 2 * halfLane ea + j < 4 := by omega
    have henabled : (byteEnable2 ea).getLsbD (2 * halfLane ea + j) = true := by
      rw [byteEnable2_bit ea hi, decide_eq_true_eq, ← halfLane_eq]
      omega
    calc lane ((s.memWrite2 ea v).readWord (wordAlign ea)) (2 * halfLane ea + j)
        = lane (replicateHalf v) (2 * halfLane ea + j) := lane_readWord_writeWord hlegal hw _ hi henabled
      _ = lane v ((2 * halfLane ea + j) % 2) := lane_replicateHalf v hi
      _ = lane v j := by rw [Nat.mul_add_mod, Nat.mod_eq_of_lt hj]
  have hlow := hlane 0 (by omega)
  rw [Nat.add_zero] at hlow
  rw [State.memRead2, selectHalf, half_eq_lanes, hlane 1 (by omega), hlow]
  exact (half_eq_lanes v 0).symm

theorem memRead4_memWrite4 : (s.memWrite4 ea v).memRead4 ea = v :=
  readWord_memWrite4 hlegal ((inWindow_wordAlign hlegal ea).trans hw) (wordAlign_wordAlign ea).symm v

end Legal

/-- What a load to a register other than 0 leaves in it. -/
theorem readReg_finishLoad_self (s : State) {rd : RegIdx} (hrd : rd ≠ 0#5) (ea v : Word) :
    (s.finishLoad rd ea v).readReg rd = v := by
  rw [readReg_finishLoad, if_pos ⟨rfl, hrd⟩]

/-- An effective address depends on the register file alone. -/
theorem effAddr_of_regs {s t : State} (h : t.regs = s.regs) (rs1 : RegIdx) (imm : Word) :
    t.effAddr rs1 imm = s.effAddr rs1 imm :=
  congrArg (· + imm) (readReg_of_regs h rs1)

/-- Settles O31: the load computes the store's address again, and the channel returns the lanes just written. -/
theorem storeThenLoadRoundTrip : Obligations.StoreThenLoadRoundTrip := by
  intro rd rs1 rs2 imm s hlegal hw hrd
  refine ⟨⟨_, _, rfl, rfl, ?word⟩, ⟨_, _, rfl, rfl, ?half⟩, ⟨_, _, rfl, rfl, ?byte⟩⟩
  all_goals rw [readReg_finishLoad_self _ hrd]
  case word =>
    rw [effAddr_of_regs (t := (s.memWrite4 _ _).advance) (memWrite4_regs ..)]
    exact memRead4_memWrite4 hlegal hw _
  case half =>
    rw [effAddr_of_regs (t := (s.memWrite2 _ _).advance) (memWrite2_regs ..)]
    exact congrArg (BitVec.zeroExtend 32) (memRead2_memWrite2 hlegal hw _)
  case byte =>
    rw [effAddr_of_regs (t := (s.memWrite1 _ _).advance) (memWrite1_regs ..)]
    exact congrArg (BitVec.zeroExtend 32) (memRead1_memWrite1 hlegal hw _)

/-! ### The canonical form (log 14) -/

theorem wfFrom_cons_iff (low k : Nat) (b : Byte) (rest : Memory) :
    Memory.wfFrom low ((k, b) :: rest) = true ↔ low ≤ k ∧ b ≠ 0x00#8 ∧ Memory.wfFrom (k + 1) rest = true := by
  simp [Memory.wfFrom, and_assoc]

theorem readByte_head (k : Nat) (b : Byte) (rest : Memory) : Memory.readByte ((k, b) :: rest) k = b := if_pos rfl

/-- Below its first address a canonical memory reads as zero. -/
theorem readByte_of_lt_wfFrom {m : Memory} {low n : Nat} (hm : Memory.wfFrom low m = true) (hn : n < low) :
    Memory.readByte m n = 0x00#8 := by
  induction m generalizing low with
  | nil => rfl
  | cons c rest ih =>
    obtain ⟨k, b⟩ := c
    obtain ⟨hk, -, hrest⟩ := (wfFrom_cons_iff ..).mp hm
    rw [Memory.readByte, if_neg (by omega), ih hrest (by omega)]

/-- After its first address a canonical memory reads as the rest of it does, which reads as zero up to there. -/
theorem readByte_rest {k n : Nat} {b : Byte} {rest : Memory} (hrest : Memory.wfFrom (k + 1) rest = true) :
    Memory.readByte rest n = if n ≤ k then 0x00#8 else Memory.readByte ((k, b) :: rest) n := by
  split
  · exact readByte_of_lt_wfFrom hrest (by omega)
  · rw [Memory.readByte, if_neg (by omega)]

/-- The first address of a canonical memory is the first at which it does not read as zero. -/
theorem first_address_le {low low' k k' : Nat} {b b' : Byte} {rest rest' : Memory}
    (hm : Memory.wfFrom low ((k, b) :: rest) = true) (hm' : Memory.wfFrom low' ((k', b') :: rest') = true)
    (h : ∀ n, Memory.readByte ((k, b) :: rest) n = Memory.readByte ((k', b') :: rest') n) : k' ≤ k := by
  obtain ⟨-, hb, -⟩ := (wfFrom_cons_iff ..).mp hm
  obtain ⟨-, hb', hrest'⟩ := (wfFrom_cons_iff ..).mp hm'
  by_contra hlt
  have hzero : Memory.readByte ((k', b') :: rest') k = 0x00#8 :=
    readByte_of_lt_wfFrom ((wfFrom_cons_iff k' ..).mpr ⟨Nat.le_refl _, hb', hrest'⟩) (by omega)
  exact hb ((readByte_head k b rest).symm.trans ((h k).trans hzero))

/-- A canonical memory that lists a byte does not read as zero there. -/
theorem eq_nil_of_readByte_zero {m : Memory} {low : Nat} (hm : Memory.wfFrom low m = true)
    (h : ∀ n, Memory.readByte m n = 0x00#8) : m = [] := by
  cases m with
  | nil => rfl
  | cons c rest =>
    obtain ⟨k, b⟩ := c
    obtain ⟨-, hb, -⟩ := (wfFrom_cons_iff ..).mp hm
    exact absurd ((readByte_head k b rest).symm.trans (h k)) hb

/-- Canonical memories that read alike are equal, entry by entry. -/
theorem eq_of_readByte_eq {m m' : Memory} {low low' : Nat} (hm : Memory.wfFrom low m = true)
    (hm' : Memory.wfFrom low' m' = true) (h : ∀ n, Memory.readByte m n = Memory.readByte m' n) : m = m' := by
  induction m generalizing m' low low' with
  | nil => exact (eq_nil_of_readByte_zero hm' fun n => (h n).symm).symm
  | cons c rest ih =>
    cases m' with
    | nil => exact eq_nil_of_readByte_zero hm h
    | cons c' rest' =>
      obtain ⟨k, b⟩ := c
      obtain ⟨k', b'⟩ := c'
      obtain rfl : k = k' := Nat.le_antisymm (first_address_le hm' hm fun n => (h n).symm) (first_address_le hm hm' h)
      obtain ⟨-, -, hrest⟩ := (wfFrom_cons_iff ..).mp hm
      obtain ⟨-, -, hrest'⟩ := (wfFrom_cons_iff ..).mp hm'
      obtain rfl : b = b' := (readByte_head k b rest).symm.trans ((h k).trans (readByte_head k b' rest'))
      have htail : ∀ n, Memory.readByte rest n = Memory.readByte rest' n := fun n => by
        rw [readByte_rest (b := b) hrest, readByte_rest (b := b) hrest', h]
      rw [ih hrest hrest' htail]

/-- Settles O33: the first addresses agree, then the bytes there, then the rests. -/
theorem canonicalMemoriesAreDetermined : Obligations.CanonicalMemoriesAreDetermined :=
  fun _ _ => eq_of_readByte_eq

end Sys2Proof.Machine
end
